-- ==== Sys2Proof/Word.lean ====
section
/-! DEFINITION. The words of U64CORE: the 64-bit value, the 72-bit command word and the split pair
(spec/00_scope.md R2, R9; spec/30_encoding.md R50). -/

namespace Sys2Proof

/-- A 64-bit pattern: a value of ACC or of the operand field (R9, R50). -/
abbrev Word := BitVec 64

/-- A command word: opcode in bits 71:64, operand in bits 63:0 (R50). -/
abbrev CommandWord := BitVec 72

/-- The split representation `(high_bit, low63)` of a UInt64 (R9, R20). The low part is 63 bits wide, so the
representation invariant of R21 is a fact of the type. -/
structure Split where
  /-- `high_bit`, bit 63 of the value. -/
  high : BitVec 1
  /-- `low63`, bits 62:0 of the value. -/
  low : BitVec 63
deriving DecidableEq, Repr

end Sys2Proof
end

