-- ==== Sys2Proof/Syntax.lean ====
section
/-! DEFINITION. The commands of U64CORE, one constructor per row of the opcode table (spec/30_encoding.md R56). -/

namespace Sys2Proof

/-- The 18 commands of R56. A command of format V or S carries its operand field OPD, a 64-bit pattern, every value of
which is legal (R51, R52, R58). A command of format N carries nothing, because OPD is ignored (R53; log entry 4). -/
inductive Instr where
  /-- LOAD, 0x01, format V (R70). -/
  | load (b : Word)
  /-- ADD, 0x10, format V (R76). -/
  | add (b : Word)
  /-- SUB, 0x11, format V (R80). -/
  | sub (b : Word)
  /-- MUL, 0x12, format V (R92). -/
  | mul (b : Word)
  /-- DIV, 0x13, format V (R101). -/
  | div (b : Word)
  /-- MOD, 0x14, format V (R102). -/
  | mod (b : Word)
  /-- INC, 0x15, format N (R84). -/
  | inc
  /-- DEC, 0x16, format N (R86). -/
  | dec
  /-- ASL, 0x20, format S (R117). -/
  | asl (n : Word)
  /-- ASR, 0x21, format S (R119). -/
  | asr (n : Word)
  /-- LSL, 0x22, format S (R118). -/
  | lsl (n : Word)
  /-- LSR, 0x23, format S (R120). -/
  | lsr (n : Word)
  /-- AND, 0x30, format V (R126). -/
  | and (b : Word)
  /-- OR, 0x31, format V (R127). -/
  | or (b : Word)
  /-- XOR, 0x32, format V (R128). -/
  | xor (b : Word)
  /-- NOT, 0x33, format N (R129). -/
  | not
  /-- CMP, 0x40, format V (R136). -/
  | cmp (b : Word)
  /-- TODEC, 0x50, format N (R141). -/
  | todec
deriving DecidableEq, Repr

end Sys2Proof
end

