-- ==== Sys2Proof/WellFormed.lean ====
section
/-! DEFINITION. The formats of spec/30_encoding.md R51, well-formed commands, and well-formed assembler lines (R60). -/

namespace Sys2Proof

/-- The three formats of R51: value, shift amount, none. -/
inductive Format where
  | V | S | N
deriving DecidableEq, Repr

/-- The format column of R56. -/
def Instr.format : Instr → Format
  | .load _ => .V
  | .add _ => .V
  | .sub _ => .V
  | .mul _ => .V
  | .div _ => .V
  | .mod _ => .V
  | .inc => .N
  | .dec => .N
  | .asl _ => .S
  | .asr _ => .S
  | .lsl _ => .S
  | .lsr _ => .S
  | .and _ => .V
  | .or _ => .V
  | .xor _ => .V
  | .not => .N
  | .cmp _ => .V
  | .todec => .N

/-- The operand that a command carries. -/
def Instr.operand : Instr → Option Word
  | .load b => some b
  | .add b => some b
  | .sub b => some b
  | .mul b => some b
  | .div b => some b
  | .mod b => some b
  | .inc => none
  | .dec => none
  | .asl n => some n
  | .asr n => some n
  | .lsl n => some n
  | .lsr n => some n
  | .and b => some b
  | .or b => some b
  | .xor b => some b
  | .not => none
  | .cmp b => some b
  | .todec => none

/-- A command is well-formed when it carries an operand exactly where its format has one (R51). No operand value is
reserved or malformed (R52, R58), so every term of `Instr` is well-formed. -/
def Instr.wellFormed (i : Instr) : Bool :=
  i.operand.isSome == (i.format != .N)

/-- The names an assembler line can start with: the 18 mnemonics of R56 and the four pseudo-instructions of R61. -/
inductive Mnemonic where
  | load | add | sub | mul | div | mod | inc | dec
  | asl | asr | lsl | lsr | and | or | xor | not | cmp | todec
  | clr | tst | shl | max
deriving DecidableEq, Repr

/-- The format of an assembler line (R56, R61: CLR, TST and MAX take no literal, SHL takes an amount). -/
def Mnemonic.format : Mnemonic → Format
  | .load | .add | .sub | .mul | .div | .mod => .V
  | .and | .or | .xor | .cmp => .V
  | .asl | .asr | .lsl | .lsr | .shl => .S
  | .inc | .dec | .not | .todec => .N
  | .clr | .tst | .max => .N

/-- One line of assembler: a mnemonic and at most one literal. The literal is an integer so that a minus sign can be
written and refused (R60). -/
structure AsmLine where
  mnemonic : Mnemonic
  literal : Option Int
deriving DecidableEq, Repr

/-- Why an assembler line is refused (R60). -/
inductive AsmError where
  /-- The first word of the line is no mnemonic of R56 or R61. -/
  | unknownMnemonic
  /-- The second word of the line is no literal of R60. -/
  | badLiteral
  /-- Words stand after the literal. -/
  | trailingText
  /-- Formats V and S need a literal. -/
  | missingLiteral
  /-- Format N takes no literal. -/
  | unexpectedLiteral
  /-- 'a minus sign' is an assembly error. -/
  | negativeLiteral
  /-- The literal is 2^64 or more. -/
  | literalOutOfRange
deriving DecidableEq, Repr

/-- The checks of R60 on a line: the literal is there exactly where the format has one, it has no minus sign, and it is
at most 2^64 - 1. -/
def AsmLine.check (l : AsmLine) : Except AsmError Unit :=
  match l.mnemonic.format, l.literal with
  | .N, none => .ok ()
  | .N, some _ => .error .unexpectedLiteral
  | _, none => .error .missingLiteral
  | _, some v =>
    if v < 0 then .error .negativeLiteral
    else if 2 ^ 64 ≤ v then .error .literalOutOfRange
    else .ok ()

end Sys2Proof
end

