-- ==== Sys2Proof/Decode.lean ====
section
/-! DEFINITION. The decoder and the encoder of command words (spec/30_encoding.md R50 to R59). -/

namespace Sys2Proof

/-- OPC, bits 71:64 of the command word (R50). -/
def opcField (w : CommandWord) : BitVec 8 := w.extractLsb' 64 8

/-- OPD, bits 63:0 of the command word (R50). -/
def opdField (w : CommandWord) : Word := w.extractLsb' 0 64

/-- Why a command word is no command. -/
inductive DecodeError where
  /-- OPC is one of the 238 values of R57. -/
  | illegalCommand (opc : BitVec 8)
deriving DecidableEq, Repr

/-- The opcode map of R56. Format N drops OPD (R53); every opcode that is not listed is illegal, whatever OPD is
(R57, R160). -/
def decode (w : CommandWord) : Except DecodeError Instr :=
  match opcField w with
  | 0x01#8 => .ok (.load (opdField w))
  | 0x10#8 => .ok (.add (opdField w))
  | 0x11#8 => .ok (.sub (opdField w))
  | 0x12#8 => .ok (.mul (opdField w))
  | 0x13#8 => .ok (.div (opdField w))
  | 0x14#8 => .ok (.mod (opdField w))
  | 0x15#8 => .ok .inc
  | 0x16#8 => .ok .dec
  | 0x20#8 => .ok (.asl (opdField w))
  | 0x21#8 => .ok (.asr (opdField w))
  | 0x22#8 => .ok (.lsl (opdField w))
  | 0x23#8 => .ok (.lsr (opdField w))
  | 0x30#8 => .ok (.and (opdField w))
  | 0x31#8 => .ok (.or (opdField w))
  | 0x32#8 => .ok (.xor (opdField w))
  | 0x33#8 => .ok .not
  | 0x40#8 => .ok (.cmp (opdField w))
  | 0x50#8 => .ok .todec
  | opc => .error (.illegalCommand opc)

/-- The opcode column of R56. -/
def opcodeOf : Instr → BitVec 8
  | .load _ => 0x01#8
  | .add _ => 0x10#8
  | .sub _ => 0x11#8
  | .mul _ => 0x12#8
  | .div _ => 0x13#8
  | .mod _ => 0x14#8
  | .inc => 0x15#8
  | .dec => 0x16#8
  | .asl _ => 0x20#8
  | .asr _ => 0x21#8
  | .lsl _ => 0x22#8
  | .lsr _ => 0x23#8
  | .and _ => 0x30#8
  | .or _ => 0x31#8
  | .xor _ => 0x32#8
  | .not => 0x33#8
  | .cmp _ => 0x40#8
  | .todec => 0x50#8

/-- The operand field that the assembler writes: the operand, and 0 for format N (R53, R60). -/
def operandField (i : Instr) : Word := i.operand.getD 0#64

/-- The command word of a command (R50, R56). -/
def encode (i : Instr) : CommandWord := opcodeOf i ++ operandField i

/-- `mask` of R56, the same in every row. -/
def rowMask : CommandWord := 0xFF0000000000000000#72

/-- `match` of R56, row by row. -/
def rowMatch : Instr → CommandWord
  | .load _ => 0x010000000000000000#72
  | .add _ => 0x100000000000000000#72
  | .sub _ => 0x110000000000000000#72
  | .mul _ => 0x120000000000000000#72
  | .div _ => 0x130000000000000000#72
  | .mod _ => 0x140000000000000000#72
  | .inc => 0x150000000000000000#72
  | .dec => 0x160000000000000000#72
  | .asl _ => 0x200000000000000000#72
  | .asr _ => 0x210000000000000000#72
  | .lsl _ => 0x220000000000000000#72
  | .lsr _ => 0x230000000000000000#72
  | .and _ => 0x300000000000000000#72
  | .or _ => 0x310000000000000000#72
  | .xor _ => 0x320000000000000000#72
  | .not => 0x330000000000000000#72
  | .cmp _ => 0x400000000000000000#72
  | .todec => 0x500000000000000000#72

/-- The instruction the decoder reads from the table's bits `w`, of which the table gives `nbits`; the bits above are 0.
The machine has one 72-bit word, carried in parallel (R42, R59), so no byte order enters; bits that no command word has
are refused. -/
def decodeTableWord (nbits w : Nat) : Option Instr :=
  if w % 2 ^ nbits < 2 ^ 72 then
    match decode (BitVec.ofNat 72 (w % 2 ^ nbits)) with
    | .ok i => some i
    | .error _ => none
  else none

end Sys2Proof
end

