-- ==== Sys2Proof/Machine/State.lean ====
section
/-! DEFINITION. The state of U64CORE (spec/10_state.md), the response and the host's events (spec/20_memory.md R41),
and the state after reset (R33). -/

namespace Sys2Proof.Machine

open Sys2Proof

/-- The two faults of spec/60_exceptions.md R153. A fault is reported in the response and stops nothing (R156, R158):
both are safe. -/
inductive Cause where
  /-- Cause code 1: DIV or MOD with OPD = 0 (R103). -/
  | divisionByZero
  /-- Cause code 2: an opcode that is not one of the 18 (R154). -/
  | illegalCommand
deriving DecidableEq, Repr

/-- The response to a command (spec/30_encoding.md R54): completed, or a fault with its cause. Cause code 3, which is
never produced (R155), has no term. -/
inductive Response where
  | completed
  | faulted (c : Cause)
deriving DecidableEq, Repr

/-- What the host can do to the core between two steps (R3, R41, R170, R171; log entry 1). -/
inductive HostEvent where
  /-- The host presents a command word and it is accepted and runs to its response. -/
  | command (w : CommandWord)
  /-- The host asserts `rst_i` while the core is idle (R170). -/
  | reset
  /-- A command word is accepted and `rst_i` is asserted before its response (R171). -/
  | abandoned (w : CommandWord)
deriving DecidableEq, Repr

/-- The state of the machine. The first five fields are the 155 bits of spec/10_state.md; `rsp` and `inputs` are the
model's own, for the output and the input of the step of R11 (log entries 1 and 2). -/
structure State where
  /-- ACC.H (R20). -/
  accH : BitVec 1
  /-- ACC.L (R20, R21). -/
  accL : BitVec 63
  /-- FLAGS: bit 0 C, 1 B, 2 V, 3 EQ, 4 LT, 5 GT (R23). -/
  flags : BitVec 6
  /-- DEC, digit i in bits 4*i+3 : 4*i (R26). -/
  dec : BitVec 80
  /-- DLEN (R27). -/
  dlen : BitVec 5
  /-- The response that the last step gave, if it gave one (R32: no state of the hardware). -/
  rsp : Option Response
  /-- What the host is going to do, the next event first. -/
  inputs : List HostEvent
deriving DecidableEq, Repr

/-- The reasons for which the machine stops. There is none: no fault of the spec stops the core (R156, R158) and nothing
in it is stuck (spec/93_implementation_defined.md, after U16), so the type is empty. Safe. Log entry 6. -/
inductive Fault where
deriving DecidableEq, Repr

/-- The reasons for which the model refuses. -/
inductive Refusal where
  /-- Raised by an arm of `exec` for an instruction without a meaning; safe. Every arm has its meaning, so nothing
  raises it. -/
  | notModelled (mnemonic : String)
deriving DecidableEq, Repr

/-- The state after reset (R33, R170): every register 0; no response and nothing presented yet. -/
def State.reset : State where
  accH := 0#1
  accL := 0#63
  flags := 0#6
  dec := 0#80
  dlen := 0#5
  rsp := none
  inputs := []

end Sys2Proof.Machine
end

