-- ==== Sys2Proof/Machine/Ops.lean ====
section
/-! DEFINITION. The three views of a UInt64 (spec/00_scope.md R9), the registers' reads and writes (R10), completing a
command (spec/10_state.md R24), taking a fault (spec/60_exceptions.md R156), reset (R170, R171) and accepting the next
event of the host. -/

namespace Sys2Proof

/-- `val(H, L) = H * 2^63 + L`, the magnitude (R9). The constant is the first factor, so that comparing two magnitudes by
evaluation never counts it down. -/
def Split.val (p : Split) : Nat := p.low.toNat + 2 ^ 63 * p.high.toNat

/-- `pat(H, L)`, the 64-bit pattern (R9). -/
def Split.pat (p : Split) : Word := p.high ++ p.low

/-- `split(v)`, the pair of a pattern (R9). -/
def Split.ofWord (v : Word) : Split := ⟨v.extractLsb' 63 1, v.extractLsb' 0 63⟩

namespace Machine

/-- ACC as its pair of fields (R20). -/
def State.acc (s : State) : Split := ⟨s.accH, s.accL⟩

/-- `ACC.P`, the pattern of ACC (R10). -/
def State.accPat (s : State) : Word := s.acc.pat

/-- `a`, the value of ACC (R10). -/
def State.accVal (s : State) : Nat := s.acc.val

/-- `ACC.H <- H ; ACC.L <- L`. -/
def State.writeAccPair (s : State) (p : Split) : State := { s with accH := p.high, accL := p.low }

/-- `ACC <- v` for a 64-bit pattern (R10). -/
def State.writeAcc (s : State) (v : Word) : State := s.writeAccPair (Split.ofWord v)

/-- `DEC <- d ; DLEN <- n`, which TODEC alone does (R26, R27). -/
def State.writeDecimal (s : State) (d : BitVec 80) (n : BitVec 5) : State := { s with dec := d, dlen := n }

/-- A command completes: all six bits of FLAGS are written (R24) and the response has `fault = 0` (R54). -/
def State.complete (s : State) (f : BitVec 6) : State := { s with flags := f, rsp := some .completed }

/-- `raise` of a fault (R10, R156): the response tells of it and nothing else happens. There is no saved pc or status,
no mode, no handler address and so no return from a fault (R157, R158): the next command is accepted as after a completed
one. -/
def State.raise (s : State) (c : Cause) : State := { s with rsp := some (.faulted c) }

/-- What the core does with a command word that is no command (R154). -/
def State.takeIllegalCommand (s : State) : State := s.raise .illegalCommand

/-- No command is offered: the core holds its state (R168) and gives no response (log entry 2). -/
def State.idle (s : State) : State := { s with rsp := none }

/-- Reset (R170): no state survives it; what the host does afterwards is the host's. -/
def State.takeReset (s : State) : State := { State.reset with inputs := s.inputs }

/-- Reset while a command is in flight (R171): no response, none of the command's effects, the reset state. -/
def State.abandonCommand (s : State) : State := { State.reset with inputs := s.inputs }

/-- The host's next event and the state that has accepted it; none when the host offers nothing (R41, R45). -/
def State.nextEvent (s : State) : Option (HostEvent × State) :=
  match s.inputs with
  | [] => none
  | e :: rest => some (e, { s with inputs := rest })

/-- The host presents the command word `w` as its next event (R41). -/
def State.present (s : State) (w : CommandWord) : State := { s with inputs := .command w :: s.inputs }

end Machine

end Sys2Proof
end

