-- ==== Sys2Proof/Machine/Flags.lean ====
section
/-! DEFINITION. The flag register FLAGS (spec/10_state.md R23), every flag computation of the spec, and the order on
split pairs that CMP and the divider use (spec/46_compare.md R135). -/

namespace Sys2Proof

/-- `a > b` on split pairs: `high_bit` first, then `low63` (R135). -/
def Split.gt (a b : Split) : Bool :=
  (a.high == 1#1 && b.high == 0#1) || (a.high == b.high && decide (b.low.toNat < a.low.toNat))

/-- `a < b` on split pairs (R135). -/
def Split.lt (a b : Split) : Bool :=
  (a.high == 0#1 && b.high == 1#1) || (a.high == b.high && decide (a.low.toNat < b.low.toNat))

/-- `a = b` on split pairs (R135). -/
def Split.eq (a b : Split) : Bool := a.high == b.high && a.low == b.low

namespace Machine

/-- FLAGS from its six fields, at the bit positions of R23. -/
def flagsWord (c b v eq lt gt : Bool) : BitVec 6 :=
  BitVec.ofBool gt ++ BitVec.ofBool lt ++ BitVec.ofBool eq ++ BitVec.ofBool v ++ BitVec.ofBool b ++ BitVec.ofBool c

/-- C, bit 0 of FLAGS. -/
def flagC (f : BitVec 6) : Bool := f.getLsbD 0

/-- B, bit 1 of FLAGS. -/
def flagB (f : BitVec 6) : Bool := f.getLsbD 1

/-- V, bit 2 of FLAGS. -/
def flagV (f : BitVec 6) : Bool := f.getLsbD 2

/-- EQ, bit 3 of FLAGS. -/
def flagEQ (f : BitVec 6) : Bool := f.getLsbD 3

/-- LT, bit 4 of FLAGS. -/
def flagLT (f : BitVec 6) : Bool := f.getLsbD 4

/-- GT, bit 5 of FLAGS. -/
def flagGT (f : BitVec 6) : Bool := f.getLsbD 5

/-- FLAGS of a command that computes no flag (R24). -/
def noFlags : BitVec 6 := flagsWord false false false false false false

/-- FLAGS of ADD and INC: C is 1 when the true sum is 2^64 or more (R76, R84). -/
def carryFlags (sum : Nat) : BitVec 6 := flagsWord (decide (2 ^ 64 ≤ sum)) false false false false false

/-- FLAGS of SUB and DEC: B is 1 when the true difference is below 0 (R80, R86). -/
def borrowFlags (diff : Int) : BitVec 6 := flagsWord false (decide (diff < 0)) false false false false

/-- FLAGS of MUL: V is 1 when the true product is 2^64 or more (R92). -/
def overflowFlags (prod : Nat) : BitVec 6 := flagsWord false false (decide (2 ^ 64 ≤ prod)) false false false

/-- FLAGS of CMP: the three outcomes of the order of R135 (R136). -/
def compareFlags (a b : Split) : BitVec 6 := flagsWord false false false (a.eq b) (a.lt b) (a.gt b)

end Machine

end Sys2Proof
end

