-- ==== Sys2Proof/Config.lean ====
section
/-! DEFINITION. What an instance of U64CORE fixes: the one open parameter of the spec (spec/00_scope.md R6, R7). -/

namespace Sys2Proof

/-- The two values of the parameter `SHIFT_OVERWIDTH` (R7). -/
inductive ShiftOverwidth where
  /-- An amount of 64 to 2^63 - 1 shifts every bit out. -/
  | zero
  /-- An amount of 64 to 2^63 - 1 is used modulo 64. -/
  | mod64
deriving DecidableEq, Repr, Inhabited

/-- `SHIFT_OVERWIDTH` of this hardware instance (R7, R174). The spec leaves it open, so it has no body: a statement
about the machine holds for either value. Log entry 3. -/
opaque Config.shiftOverwidth : ShiftOverwidth

end Sys2Proof
end

