-- ==== Sys2Proof/Machine/Operands.lean ====
section
/-! DEFINITION. The operand forms of U64CORE: the value operand of format V as it is (spec/30_encoding.md R52), and the
shift amount of format S with its three ranges (spec/44_shift.md R114). -/

namespace Sys2Proof.Machine

open Sys2Proof

/-- `b`, the value of the operand (R10, R52). -/
def operandVal (b : Word) : Nat := b.toNat

/-- `(OPD.H, OPD.L)`, the operand's split form (R52). -/
def operandPair (b : Word) : Split := Split.ofWord b

/-- The classification of a shift amount (R114, R115): none for `wipe`, and otherwise the effective amount `e`, 0 to 63.
`p` is SHIFT_OVERWIDTH. -/
def shiftAmount (p : ShiftOverwidth) (n : Word) : Option Nat :=
  if (operandPair n).high = 1#1 then none
  else if 64 ≤ (operandPair n).low.toNat then
    match p with
    | .zero => none
    | .mod64 => some ((operandPair n).low.toNat % 64)
  else some (operandPair n).low.toNat

end Sys2Proof.Machine
end

