-- ==== Sys2Proof/Machine/AddSub.lean ====
section
/-! DEFINITION. ADD, SUB, INC, DEC: the architectural results on the magnitude (spec/41_add_sub.md). -/

namespace Sys2Proof.Machine

open Sys2Proof

/-- The result of an addition whose true sum is `sum`: wrapped modulo 2^64, C the carry out of bit 63 (R75). -/
def State.finishSum (s : State) (sum : Nat) : State :=
  (s.writeAcc (BitVec.ofNat 64 sum)).complete (carryFlags sum)

/-- The result of a subtraction whose true difference is `diff`: wrapped modulo 2^64, B the borrow (R75). -/
def State.finishDiff (s : State) (diff : Int) : State :=
  (s.writeAcc (BitVec.ofInt 64 diff)).complete (borrowFlags diff)

/-- ADD (R76). -/
def execAdd (b : Word) (s : State) : Host.Outcome State Fault Refusal :=
  .next (s.finishSum (s.accVal + operandVal b))

/-- SUB (R80). -/
def execSub (b : Word) (s : State) : Host.Outcome State Fault Refusal :=
  .next (s.finishDiff ((s.accVal : Int) - (operandVal b : Int)))

/-- INC (R84). -/
def execInc (s : State) : Host.Outcome State Fault Refusal :=
  .next (s.finishSum (s.accVal + 1))

/-- DEC (R86). -/
def execDec (s : State) : Host.Outcome State Fault Refusal :=
  .next (s.finishDiff ((s.accVal : Int) - 1))

end Sys2Proof.Machine
end

