-- ==== Sys2Proof/Machine/Bitwise.lean ====
section
/-! DEFINITION. AND, OR, XOR, NOT on the split pair: a 63-bit operation on `low63` and a 1-bit operation on `high_bit`
(spec/45_bitwise.md R125). -/

namespace Sys2Proof.Machine

open Sys2Proof

/-- AND (R126). -/
def execAnd (b : Word) (s : State) : Host.Outcome State Fault Refusal :=
  .next ((s.writeAccPair ⟨s.accH &&& (operandPair b).high, s.accL &&& (operandPair b).low⟩).complete noFlags)

/-- OR (R127). -/
def execOr (b : Word) (s : State) : Host.Outcome State Fault Refusal :=
  .next ((s.writeAccPair ⟨s.accH ||| (operandPair b).high, s.accL ||| (operandPair b).low⟩).complete noFlags)

/-- XOR (R128): the parity of the two high bits; no bit pattern forces a zero result. -/
def execXor (b : Word) (s : State) : Host.Outcome State Fault Refusal :=
  .next ((s.writeAccPair ⟨s.accH ^^^ (operandPair b).high, s.accL ^^^ (operandPair b).low⟩).complete noFlags)

/-- NOT (R129). -/
def execNot (s : State) : Host.Outcome State Fault Refusal :=
  .next ((s.writeAccPair ⟨1#1 - s.accH, ~~~ s.accL⟩).complete noFlags)

end Sys2Proof.Machine
end

