-- ==== Sys2Proof/Machine/Compare.lean ====
section
/-! DEFINITION. CMP (spec/46_compare.md). -/

namespace Sys2Proof.Machine

open Sys2Proof

/-- CMP (R136): EQ, LT, GT by the order of R135; ACC unchanged. -/
def execCmp (b : Word) (s : State) : Host.Outcome State Fault Refusal :=
  .next (s.complete (compareFlags s.acc (operandPair b)))

end Sys2Proof.Machine
end

