-- ==== Sys2Proof/Machine/Decimal.lean ====
section
/-! DEFINITION. TODEC and the layout of DEC (spec/47_decimal.md R140, R141; spec/10_state.md R26). -/

namespace Sys2Proof.Machine

open Sys2Proof

/-- The twenty digits of `a`, units digit first: digit i is `(a div 10^i) mod 10` (R141). -/
def decimalDigits (a : Nat) : List Nat := (List.range 20).map fun i => a / 10 ^ i % 10

/-- Digits, units digit first, as a number with four bits a digit (R26). -/
def packDigits : List Nat → Nat
  | [] => 0
  | d :: ds => d + 16 * packDigits ds

/-- DEC as an 80-bit word: digit i in bits 4*i+3 : 4*i (R26). -/
def decimalWord (digits : List Nat) : BitVec 80 := BitVec.ofNat 80 (packDigits digits)

/-- The number of decimal digits of `a`: the least n with `a < 10^n`, or 1 (R141). -/
def decimalLength (a : Nat) : Nat :=
  if a = 0 then 1 else ((List.range 21).find? fun n => decide (a < 10 ^ n)).getD 20

/-- `DEC[i]` of an 80-bit word (R26). -/
def decDigit (d : BitVec 80) (i : Nat) : BitVec 4 := d.extractLsb' (4 * i) 4

/-- TODEC (R141): DEC and DLEN become the numeral of ACC, FLAGS 0, ACC unchanged. -/
def execTodec (s : State) : Host.Outcome State Fault Refusal :=
  .next ((s.writeDecimal (decimalWord (decimalDigits s.accVal)) (BitVec.ofNat 5 (decimalLength s.accVal))).complete
    noFlags)

end Sys2Proof.Machine
end

