-- ==== Sys2Proof/Machine/DivideModulo.lean ====
section
/-! DEFINITION. DIV and MOD: the architectural results on the magnitude (spec/43_divide_modulo.md). -/

namespace Sys2Proof.Machine

open Sys2Proof

/-- DIV (R101): the zero test comes first (R104) and raises DivisionByZero (R103). -/
def execDiv (b : Word) (s : State) : Host.Outcome State Fault Refusal :=
  if operandVal b = 0 then .next (s.raise .divisionByZero)
  else .next ((s.writeAcc (BitVec.ofNat 64 (s.accVal / operandVal b))).complete noFlags)

/-- MOD (R102): the zero test comes first (R104) and raises DivisionByZero (R103). -/
def execMod (b : Word) (s : State) : Host.Outcome State Fault Refusal :=
  if operandVal b = 0 then .next (s.raise .divisionByZero)
  else .next ((s.writeAcc (BitVec.ofNat 64 (s.accVal % operandVal b))).complete noFlags)

end Sys2Proof.Machine
end

