-- ==== Sys2Proof/Machine/Load.lean ====
section
/-! DEFINITION. LOAD (spec/40_load.md). -/

namespace Sys2Proof.Machine

open Sys2Proof

/-- LOAD (R70): ACC becomes the operand, FLAGS 0. -/
def execLoad (b : Word) (s : State) : Host.Outcome State Fault Refusal :=
  .next ((s.writeAccPair (operandPair b)).complete noFlags)

end Sys2Proof.Machine
end

