-- ==== Sys2Proof/Machine/Multiply.lean ====
section
/-! DEFINITION. MUL: the architectural result on the magnitude (spec/42_multiply.md). -/

namespace Sys2Proof.Machine

open Sys2Proof

/-- MUL (R92): the low 64 bits of the product, V when bits are lost. -/
def execMul (b : Word) (s : State) : Host.Outcome State Fault Refusal :=
  .next ((s.writeAcc (BitVec.ofNat 64 (s.accVal * operandVal b))).complete (overflowFlags (s.accVal * operandVal b)))

end Sys2Proof.Machine
end

