-- ==== Sys2Proof/Machine/Shift.lean ====
section
/-! DEFINITION. ASL, ASR, LSL, LSR (spec/44_shift.md). -/

namespace Sys2Proof.Machine

open Sys2Proof

/-- `wipe ? 0 : (P << e) mod 2^64` (R117). -/
def shiftLeft (amount : Option Nat) (p : Word) : Word :=
  match amount with
  | none => 0#64
  | some e => BitVec.ofNat 64 (p.toNat <<< e)

/-- `wipe ? 0 : (P >> e)`, zeros entering at bit 63 (R119, R120). -/
def shiftRight (amount : Option Nat) (p : Word) : Word :=
  match amount with
  | none => 0#64
  | some e => BitVec.ofNat 64 (p.toNat >>> e)

/-- ASL (R117). -/
def execAsl (n : Word) (s : State) : Host.Outcome State Fault Refusal :=
  .next ((s.writeAcc (shiftLeft (shiftAmount Config.shiftOverwidth n) s.accPat)).complete noFlags)

/-- ASR (R119): a UInt64 is never negative, so the fill is zero. -/
def execAsr (n : Word) (s : State) : Host.Outcome State Fault Refusal :=
  .next ((s.writeAcc (shiftRight (shiftAmount Config.shiftOverwidth n) s.accPat)).complete noFlags)

/-- LSL (R118): the behaviour of ASL for every receiver and amount. -/
def execLsl (n : Word) (s : State) : Host.Outcome State Fault Refusal :=
  .next ((s.writeAcc (shiftLeft (shiftAmount Config.shiftOverwidth n) s.accPat)).complete noFlags)

/-- LSR (R120). -/
def execLsr (n : Word) (s : State) : Host.Outcome State Fault Refusal :=
  .next ((s.writeAcc (shiftRight (shiftAmount Config.shiftOverwidth n) s.accPat)).complete noFlags)

end Sys2Proof.Machine
end

