-- ==== Sys2Proof/Machine/Dispatch.lean ====
section
/-! DEFINITION. One arm per command, each a call of its meaning. -/

namespace Sys2Proof.Machine

open Sys2Proof

def exec (i : Instr) (s : State) : Host.Outcome State Fault Refusal :=
  match i with
  | .load b => Sys2Proof.Machine.execLoad b s
  | .add b => Sys2Proof.Machine.execAdd b s
  | .sub b => Sys2Proof.Machine.execSub b s
  | .mul b => Sys2Proof.Machine.execMul b s
  | .div b => Sys2Proof.Machine.execDiv b s
  | .mod b => Sys2Proof.Machine.execMod b s
  | .inc => Sys2Proof.Machine.execInc s
  | .dec => Sys2Proof.Machine.execDec s
  | .asl n => Sys2Proof.Machine.execAsl n s
  | .asr n => Sys2Proof.Machine.execAsr n s
  | .lsl n => Sys2Proof.Machine.execLsl n s
  | .lsr n => Sys2Proof.Machine.execLsr n s
  | .and b => Sys2Proof.Machine.execAnd b s
  | .or b => Sys2Proof.Machine.execOr b s
  | .xor b => Sys2Proof.Machine.execXor b s
  | .not => Sys2Proof.Machine.execNot s
  | .cmp b => Sys2Proof.Machine.execCmp b s
  | .todec => Sys2Proof.Machine.execTodec s

end Sys2Proof.Machine
end

