-- ==== Sys2Proof/Machine/Step.lean ====
section
/-! DEFINITION. One step of the machine: the host's next event takes effect, completely (spec/00_scope.md R11,
spec/20_memory.md R44, R45). -/

namespace Sys2Proof.Machine

open Sys2Proof

/-- One step. With nothing presented the core is idle (R168); a command word is decoded and executed, or faults as
illegal (R154); a reset resets (R170), also in mid-command (R171). -/
def step (s : State) : Host.Outcome State Fault Refusal :=
  match s.nextEvent with
  | none => .next s.idle
  | some (.command w, t) =>
    match decode w with
    | .ok i => exec i t
    | .error _ => .next t.takeIllegalCommand
  | some (.reset, t) => .next t.takeReset
  | some (.abandoned _, t) => .next t.abandonCommand

/-- The command word with the table's bits `w` (of which the table gives `nbits`; the bits above are 0) presented as the
host's next event, where `step` takes its next instruction from (log entry 1). -/
def State.withFetchWord (s : State) (nbits w : Nat) : State :=
  s.present (BitVec.ofNat 72 (w % 2 ^ nbits))

end Sys2Proof.Machine
end

