-- ==== Sys2Proof/Machine/Assembler.lean ====
section
/-! DEFINITION. The assembler syntax and the pseudo-instructions (spec/30_encoding.md R60, R61). The host's tool, not
the core's: no state depends on it. -/

namespace Sys2Proof.Machine

open Sys2Proof

/-- The command that a mnemonic and its literal stand for; a pseudo-instruction expands to exactly one command (R61). -/
def expand (m : Mnemonic) (v : Word) : Instr :=
  match m with
  | .load => .load v
  | .add => .add v
  | .sub => .sub v
  | .mul => .mul v
  | .div => .div v
  | .mod => .mod v
  | .inc => .inc
  | .dec => .dec
  | .asl => .asl v
  | .asr => .asr v
  | .lsl => .lsl v
  | .lsr => .lsr v
  | .and => .and v
  | .or => .or v
  | .xor => .xor v
  | .not => .not
  | .cmp => .cmp v
  | .todec => .todec
  | .clr => .load 0#64
  | .tst => .cmp 0#64
  | .shl => .lsl v
  | .max => .load 0xFFFFFFFFFFFFFFFF#64

/-- The command word of a checked line, or why the line is refused (R60). -/
def assemble (l : AsmLine) : Except AsmError CommandWord :=
  match l.check with
  | .error e => .error e
  | .ok _ => .ok (encode (expand l.mnemonic (BitVec.ofInt 64 (l.literal.getD 0))))

/-- The text of every mnemonic, upper case (R60). -/
def mnemonicTable : List (List Char × Mnemonic) :=
  [("LOAD".toList, .load), ("ADD".toList, .add), ("SUB".toList, .sub), ("MUL".toList, .mul), ("DIV".toList, .div),
   ("MOD".toList, .mod), ("INC".toList, .inc), ("DEC".toList, .dec), ("ASL".toList, .asl), ("ASR".toList, .asr),
   ("LSL".toList, .lsl), ("LSR".toList, .lsr), ("AND".toList, .and), ("OR".toList, .or), ("XOR".toList, .xor),
   ("NOT".toList, .not), ("CMP".toList, .cmp), ("TODEC".toList, .todec), ("CLR".toList, .clr), ("TST".toList, .tst),
   ("SHL".toList, .shl), ("MAX".toList, .max)]

/-- The numerals of R60's literals in the order of their values: the ten of a decimal literal come first. -/
def numerals : List Char := "0123456789ABCDEF".toList

/-- The value of a digit character is its place among the numerals (hexadecimal letters in either case: log entry 9). -/
def digitValue (c : Char) : Option Nat := numerals.findIdx? fun n => n == c || n.toLower == c

/-- Digits of a radix with `_` between two of them (R60): `sep` tells that a digit has just been read. -/
def readDigits (radix : Nat) : List Char → Bool → Nat → Option Nat
  | [], sep, n => if sep then some n else none
  | c :: cs, sep, n =>
    if c = '_' then (if sep then readDigits radix cs false n else none)
    else
      match digitValue c with
      | some d => if d < radix then readDigits radix cs true (n * radix + d) else none
      | none => none

/-- An unsigned literal, hexadecimal after `0x` and decimal otherwise (R60). -/
def readUnsigned (text : List Char) : Option Nat :=
  match text with
  | '0' :: 'x' :: hex => readDigits 16 hex false 0
  | dec => readDigits 10 dec false 0

/-- A literal. One with a minus sign, '-0' too, becomes a negative number, which the check of the line then refuses
(R60). -/
def readLiteral (text : List Char) : Option Int :=
  match text with
  | '-' :: rest => (readUnsigned rest).map fun n => -(n : Int) - 1
  | rest => (readUnsigned rest).map fun n => (n : Int)

/-- The words of a line, which spaces and tabs separate; the second argument is the word being read, last character
first. -/
def splitWords : List Char → List Char → List (List Char)
  | [], acc => if acc.isEmpty then [] else [acc.reverse]
  | c :: cs, acc =>
    if c = ' ' ∨ c = '\t' then (if acc.isEmpty then splitWords cs [] else acc.reverse :: splitWords cs [])
    else splitWords cs (c :: acc)

/-- A line of text as a mnemonic with its literal; none for a line without a command. `;` starts a comment (R60). -/
def parseAsmLine (text : List Char) : Except AsmError (Option AsmLine) :=
  match splitWords (text.takeWhile (· != ';')) [] with
  | [] => .ok none
  | name :: rest =>
    match mnemonicTable.find? (fun row => row.1 == name) with
    | none => .error .unknownMnemonic
    | some row =>
      match rest with
      | [] => .ok (some ⟨row.2, none⟩)
      | [lit] =>
        match readLiteral lit with
        | some v => .ok (some ⟨row.2, some v⟩)
        | none => .error .badLiteral
      | _ :: _ :: _ => .error .trailingText

/-- One line of text to its command word, one command per line (R60). -/
def assembleText (text : List Char) : Except AsmError (Option CommandWord) :=
  match parseAsmLine text with
  | .error e => .error e
  | .ok none => .ok none
  | .ok (some l) =>
    match assemble l with
    | .ok w => .ok (some w)
    | .error e => .error e

end Sys2Proof.Machine
end

