-- ==== Sys2Proof/Machine/Datapath.lean ====
section
/-! DEFINITION. The reference datapaths on the split pair (spec/00_scope.md R13). They are no second definition of a
command: the meanings give the architectural results, and where the two could differ those win (R13). -/

namespace Sys2Proof

/-- The adder of R77: the pair of the sum and its carry C. `s` is the raw sum in 64 bits, `c62` its bit 63, `p` the
62-bit-masked partial sum and `t` the manual carry into bit 62. -/
def addDatapath (a b : Split) : Split × Bool :=
  let s : BitVec 64 := a.low.setWidth 64 + b.low.setWidth 64
  let c62 : Bool := s.getLsbD 63
  let p : BitVec 63 := (a.low.extractLsb' 0 62).setWidth 63 + (b.low.extractLsb' 0 62).setWidth 63
  let t : BitVec 2 := (p.extractLsb' 62 1).setWidth 2 + (a.low.extractLsb' 62 1).setWidth 2
    + (b.low.extractLsb' 62 1).setWidth 2
  let low : BitVec 63 := if c62 then t.extractLsb' 0 1 ++ p.extractLsb' 0 62 else s.extractLsb' 0 63
  let ha : Bool := a.high == 1#1
  let hb : Bool := b.high == 1#1
  (⟨a.high ^^^ b.high ^^^ BitVec.ofBool c62, low⟩, (ha && hb) || (ha && c62) || (hb && c62))

/-- `Int64Max = 2^63 - 1` (R81). -/
def int64Max : Int := 2 ^ 63 - 1

/-- The subtractor of R81: the pair of the difference and its borrow B. `d` is the raw difference and `bw` tells that a
borrow is required. -/
def subDatapath (a b : Split) : Split × Bool :=
  if a.low = b.low ∧ a.high = b.high then (⟨0#1, 0#63⟩, false)
  else
    let d : Int := (a.low.toNat : Int) - (b.low.toNat : Int)
    let ha : Bool := a.high == 1#1
    let hb : Bool := b.high == 1#1
    let bw : Bool := decide (d < 0)
    let borrow : Bool := (!ha && hb) || (!(ha ^^ hb) && bw)
    if d < 0 then
      if a.high = b.high then (⟨1#1, BitVec.ofInt 63 (int64Max + d + 1)⟩, borrow)
      else (⟨0#1, BitVec.ofInt 63 (int64Max - ((b.low.toNat : Int) - (a.low.toNat : Int) - 1))⟩, borrow)
    else (⟨if a.high = b.high then 0#1 else 1#1, BitVec.ofInt 63 d⟩, borrow)

/-- The left shift of the pair by `e`, 0 to 63 (R121). -/
def shiftLeftPair (a : Split) (e : Nat) : Split :=
  if e = 0 then a else ⟨BitVec.ofBool (a.low.getLsbD (63 - e)), a.low <<< e⟩

/-- The right shift of the pair by `e`, 0 to 63 (R122): the old `high_bit` lands at bit 63 - e. -/
def shiftRightPair (a : Split) (e : Nat) : Split :=
  if e = 0 then a
  else ⟨0#1, BitVec.ofNat 63 ((a.low.toNat >>> e) + a.high.toNat * 2 ^ (63 - e))⟩

/-- `len(v)`, the bit length (R10). -/
def bitLength (v : Nat) : Nat := if v = 0 then 0 else 1 + Nat.log2 v

/-- The bits of `a << i` beyond position 63, not all zero (R93 `lost`). -/
def lostBits (a : Split) (i : Nat) : Bool :=
  if i = 0 then false else decide (a.val >>> (64 - i) ≠ 0)

/-- One round of R93: the partial product for bit `i` of the multiplier is added when that bit is set. -/
def mulRound (a b : Split) (r : Split × Bool) (i : Nat) : Split × Bool :=
  if b.pat.getLsbD i then
    let sum := addDatapath r.1 (shiftLeftPair a i)
    (sum.1, r.2 || lostBits a i || sum.2)
  else r

/-- The multiplier of R93: the pair of the low 64 bits of the product and the flag V. -/
def mulDatapath (a b : Split) : Split × Bool :=
  if b.val = 0 then (⟨0#1, 0#63⟩, false)
  else if b.val = 1 then (a, false)
  else if bitLength a.val + bitLength b.val ≤ 63 then (⟨0#1, a.low * b.low⟩, false)
  else (List.range (bitLength b.val)).foldl (mulRound a b) (⟨0#1, 0#63⟩, false)

/-- The scan of R105 'from 62 down to 0': the largest s at or below `k` with `(a >> s) >= b`, the order being that of
R135; 0 at the end of the scan. -/
def findShift (a b : Split) : Nat → Nat
  | 0 => 0
  | k + 1 => if (shiftRightPair a (k + 1)).lt b then findShift a b k else k + 1

/-- `a[s-1:0]` as a pair (R105), for s at most 63. -/
def lowBits (a : Split) (s : Nat) : Split := ⟨0#1, BitVec.ofNat 63 (a.low.toNat % 2 ^ s)⟩

/-- `DM(a, b)` of R105, quotient and remainder, for b other than 0. The first argument bounds the depth of the recursion,
which R105 leaves to 'rest < a'; `divModDepth` is enough (log entry 7). -/
def divModDatapath : Nat → Split → Split → Split × Split
  | 0, a, _ => (⟨0#1, 0#63⟩, a)
  | depth + 1, a, b =>
    if a.eq b then (⟨0#1, 1#63⟩, ⟨0#1, 0#63⟩)
    else if a.lt b then (⟨0#1, 0#63⟩, a)
    else if a.high = 0#1 ∧ b.high = 0#1 then (⟨0#1, a.low / b.low⟩, ⟨0#1, a.low % b.low⟩)
    else
      let s := findShift a b 62
      let shifted := shiftLeftPair (subDatapath (shiftRightPair a s) b).1 s
      let rest := (addDatapath shifted (lowBits a s)).1
      let deeper := divModDatapath depth rest b
      ((addDatapath ⟨0#1, BitVec.ofNat 63 (2 ^ s)⟩ deeper.1).1, deeper.2)

/-- A depth that the recursion of R105 never reaches (log entry 7). -/
def divModDepth : Nat := 128

/-- The digits of `low63`, units digit first: 19 of them, and `dl[19] = 0` (R142). -/
def lowDigits (low : BitVec 63) : List Nat := ((List.range 19).map fun i => low.toNat / 10 ^ i % 10) ++ [0]

/-- The digits of 2^63, units digit first (R142). -/
def digitsOf2Pow63 : List Nat := [8, 0, 8, 5, 7, 7, 4, 5, 8, 6, 3, 0, 2, 7, 3, 3, 2, 2, 9, 0]

/-- Digit-by-digit addition with carry (R142). -/
def addDigits : List Nat → List Nat → Nat → List Nat
  | [], _, _ => []
  | _ :: _, [], _ => []
  | d :: ds, k :: ks, c => (d + k + c) % 10 :: addDigits ds ks ((d + k + c) / 10)

/-- The position of the highest non-zero digit plus 1, or 0 where all are zero. -/
def topPosition : List Nat → Nat
  | [] => 0
  | d :: ds => if topPosition ds = 0 then (if d = 0 then 0 else 1) else topPosition ds + 1

/-- The digits that TODEC writes, by the datapath of R142. -/
def decimalDatapathDigits (a : Split) : List Nat :=
  if a.high = 0#1 then lowDigits a.low else addDigits (lowDigits a.low) digitsOf2Pow63 0

/-- The DLEN that TODEC writes, by the datapath of R142. -/
def decimalDatapathLength (a : Split) : Nat :=
  if topPosition (decimalDatapathDigits a) = 0 then 1 else topPosition (decimalDatapathDigits a)

end Sys2Proof
end

