-- ==== Sys2Proof/Machine/Ports.lean ====
section
/-! DEFINITION. The ports of spec/20_memory.md R41 as functions of State; reading one has no side effect (R44). -/

namespace Sys2Proof.Machine

open Sys2Proof

/-- The response field `fault` (spec/30_encoding.md R54). -/
def faultField : Response → BitVec 1
  | .completed => 0#1
  | .faulted _ => 1#1

/-- The response field `cause` (spec/60_exceptions.md R155). -/
def causeField : Response → BitVec 2
  | .completed => 0#2
  | .faulted .divisionByZero => 1#2
  | .faulted .illegalCommand => 2#2

/-- `rsp = {fault, cause}` as one number (R54). -/
def responseBits (r : Response) : BitVec 3 := faultField r ++ causeField r

/-- `cmd_ready_o`: between two steps the core is never busy (spec/10_state.md R31; log entry 5). -/
def cmdReadyO (_ : State) : BitVec 1 := 1#1

/-- `cmd_valid_i`: the host offers a command word. -/
def cmdValidI (s : State) : BitVec 1 :=
  match s.inputs with
  | .command _ :: _ => 1#1
  | .abandoned _ :: _ => 1#1
  | .reset :: _ => 0#1
  | [] => 0#1

/-- `cmd_i`: the command word that the host offers, if it offers one. -/
def cmdI (s : State) : Option CommandWord :=
  match s.inputs with
  | .command w :: _ => some w
  | .abandoned w :: _ => some w
  | .reset :: _ => none
  | [] => none

/-- `rst_i`: the host asserts reset, between two commands or on a command in flight (R170, R171). -/
def rstI (s : State) : BitVec 1 :=
  match s.inputs with
  | .command _ :: _ => 0#1
  | .abandoned _ :: _ => 1#1
  | .reset :: _ => 1#1
  | [] => 0#1

/-- `rsp_valid_o`: the step just taken gave a response (log entry 2). -/
def rspValidO (s : State) : BitVec 1 := BitVec.ofBool s.rsp.isSome

/-- `rsp_fault_o`, of a response that is present. -/
def rspFaultO (s : State) : Option (BitVec 1) := s.rsp.map faultField

/-- `rsp_cause_o`, of a response that is present. -/
def rspCauseO (s : State) : Option (BitVec 2) := s.rsp.map causeField

/-- `acc_o = {ACC.H, ACC.L}`. -/
def accO (s : State) : BitVec 64 := s.accPat

/-- `flags_o`, in the bit order of R23. -/
def flagsO (s : State) : BitVec 6 := s.flags

/-- `dec_o`, digit i at bits 4*i+3 : 4*i. -/
def decO (s : State) : BitVec 80 := s.dec

/-- `dlen_o`. -/
def dlenO (s : State) : BitVec 5 := s.dlen

end Sys2Proof.Machine
end

