-- ==== Sys2Proof/Machine/HostProcedures.lean ====
section
/-! DEFINITION. What the spec has the host do with the core: a run (spec/70_reset_and_hazards.md R183), the digits it
reads after TODEC (spec/47_decimal.md R145) and the parse procedure (R147 to R151). -/

namespace Sys2Proof.Machine

open Sys2Proof

/-- A run of R183: the words presented in order, the final state with the list of responses. None only if the machine
stopped or gave no response, which it never does. -/
def runWords : List CommandWord → State → Option (State × List Response)
  | [], s => some (s, [])
  | w :: ws, s =>
    match step (s.present w) with
    | .next t =>
      match t.rsp with
      | some r => (runWords ws t).map fun x => (x.1, r :: x.2)
      | none => none
    | .fault _ => none
    | .refused _ => none

/-- The host issues one command and waits for its response. -/
def issue (i : Instr) (s : State) : Option State :=
  match step (s.present (encode i)) with
  | .next t => some t
  | .fault _ => none
  | .refused _ => none

/-- `T(r) = (2^64 - 1) div r` (R148, R149). -/
def parseThreshold (r : Word) : Word := BitVec.ofNat 64 ((2 ^ 64 - 1) / r.toNat)

/-- How a parse ends (R148): the host accepts the value in ACC, or reports UnparseableNumber. -/
inductive ParseResult where
  | accepted (s : State)
  | rejected (s : State)
  /-- The machine stopped under a command of the loop, which it never does. -/
  | stopped
deriving DecidableEq, Repr

/-- One pass of the loop of R148 for the digit `d`, from the CMP to the test of C after the ADD. -/
def parseDigit (r d : Word) (s : State) : ParseResult :=
  match issue (.cmp (parseThreshold r)) s with
  | none => .stopped
  | some s1 =>
    if flagGT (flagsO s1) then .rejected s1
    else
      match issue (.mul r) s1 with
      | none => .stopped
      | some s2 =>
        match issue (.add d) s2 with
        | none => .stopped
        | some s3 => if flagC (flagsO s3) then .rejected s3 else .accepted s3

/-- The loop of R148 over the digits, most significant first. -/
def parseLoop (r : Word) : List Word → State → ParseResult
  | [], s => .accepted s
  | d :: ds, s =>
    match parseDigit r d s with
    | .accepted t => parseLoop r ds t
    | .rejected t => .rejected t
    | .stopped => .stopped

/-- What the host checks before it issues a command: a radix of at least 2 (R152) and a non-empty sequence of digits,
each below the radix (R147; spec/93_implementation_defined.md U16; log entry 8). -/
def parseable (r : Word) (digits : List Word) : Bool :=
  decide (2 ≤ r.toNat) && !digits.isEmpty && digits.all fun d => decide (d.toNat < r.toNat)

/-- The parse procedure (R147, R148) in radix `r`. What fails the host's checks is rejected, and no step is taken. -/
def parse (r : Word) (digits : List Word) (s : State) : ParseResult :=
  if parseable r digits then
    match issue (.load 0#64) s with
    | none => .stopped
    | some t => parseLoop r digits t
  else .rejected s

/-- The digits the host reads after TODEC, most significant first: `DEC[DLEN-1]`, ..., `DEC[0]` (R141, R145). -/
def renderedDigits (s : State) : List Word :=
  ((List.range (dlenO s).toNat).map fun i => (decDigit (decO s) i).setWidth 64).reverse

/-- The value of a numeral, most significant digit first (R151). -/
def numeralValue (r : Nat) (digits : List Word) : Nat := digits.foldl (fun n d => n * r + d.toNat) 0

end Sys2Proof.Machine
end

