-- ==== Sys2Proof/Safety.lean ====
section
/-! DEFINITION. The terms in which statements speak: what a command completes with, what it keeps, and the invariant of
the machine. -/

namespace Sys2Proof.Machine

open Sys2Proof

/-- ACC, FLAGS, DEC and DLEN, the 155 bits, are the same in both states (spec/60_exceptions.md R156). -/
def SameArch (s t : State) : Prop :=
  t.accH = s.accH ∧ t.accL = s.accL ∧ t.flags = s.flags ∧ t.dec = s.dec ∧ t.dlen = s.dlen

/-- DEC and DLEN are the same in both states (spec/10_state.md R27). -/
def KeepsDecimal (s t : State) : Prop := t.dec = s.dec ∧ t.dlen = s.dlen

/-- The pair of ACC is the same in both states. -/
def KeepsAcc (s t : State) : Prop := t.accH = s.accH ∧ t.accL = s.accL

/-- The command that led from `s` to `t` completed: the response is `ok` (spec/30_encoding.md R54) and the host's stream
is untouched. -/
def Completed (s t : State) : Prop := t.rsp = some .completed ∧ t.inputs = s.inputs

/-- The command that led from `s` to `t` faulted with the cause `c`: the response alone tells of it (R156). -/
def Faulted (s t : State) (c : Cause) : Prop :=
  t.rsp = some (.faulted c) ∧ t.inputs = s.inputs ∧ SameArch s t

/-- At most one of the six flags is 1, the consequence that R24 names. -/
def flagsLegal (f : BitVec 6) : Prop := ∀ i j, f.getLsbD i = true → f.getLsbD j = true → i = j

/-- The value of the numeral in DEC. -/
def decValue (d : BitVec 80) : Nat := ((List.range 20).map fun i => (decDigit d i).toNat * 10 ^ i).sum

/-- DEC and DLEN hold what R26 and R27 allow: every digit 0 to 9, DLEN at most 20, the digits from DLEN on 0, the top
digit not 0 but for the single digit 0, and a numeral below 2^64. -/
def decimalLegal (d : BitVec 80) (n : BitVec 5) : Prop :=
  (∀ i, i < 20 → (decDigit d i).toNat ≤ 9) ∧ n.toNat ≤ 20 ∧
  (∀ i, i < 20 → n.toNat ≤ i → decDigit d i = 0#4) ∧
  (2 ≤ n.toNat → decDigit d (n.toNat - 1) ≠ 0#4) ∧ decValue d < 2 ^ 64

/-- The invariant: FLAGS and the decimal result are legal. -/
def Inv (s : State) : Prop := flagsLegal s.flags ∧ decimalLegal s.dec s.dlen

end Sys2Proof.Machine
end

