-- ==== Sys2Proof/Certificates/Slice0/Obligations.lean ====
section
/-! DEFINITION. The statements for the provers, from the numbered rules of spec/. -/

open Sys2Proof Sys2Proof.Machine

/-! ### Encoding -/

/-- Every well-formed command is read back from its own word (spec/30_encoding.md: layout R50, opcodes R56). The word is
the model's encoder's, which writes 0 where a command has no operand (log entry 4). -/
def Obligations.DecodeEncodeRoundTrip : Prop :=
  ∀ i : Instr, i.wellFormed = true → decode (encode i) = .ok i

/-- The other direction, on all 2^72 words: a word that decodes is the word of what it decodes to, but for the operand
field of a format N command, which is ignored (spec/30_encoding.md R53; log entry 4). -/
def Obligations.DecodedWordEncodesBack : Prop :=
  ∀ (w : CommandWord) (i : Instr), decode w = .ok i →
    i.wellFormed = true ∧ (i.format ≠ .N → encode i = w) ∧ (i.format = .N → encode i = opcField w ++ 0#64)

/-- R56: a word selects a row of the opcode table when `w & mask = match`, and the command is the row's with the word's
operand field. -/
def Obligations.RowsSelectByMask : Prop :=
  ∀ (w : CommandWord) (i : Instr),
    decode w = .ok i ↔ (w &&& rowMask = rowMatch i ∧ (i.operand = none ∨ i.operand = some (opdField w)))

/-- R57, R154: the 238 opcodes outside the table, whatever the operand, end with the fault IllegalCommand and change no
state; every other opcode decodes. -/
def Obligations.IllegalOpcodesFault : Prop :=
  ∀ (w : CommandWord) (s : State),
    let o := (opcField w).toNat
    let illegal := o = 0 ∨ (0x02 ≤ o ∧ o ≤ 0x0F) ∨ (0x17 ≤ o ∧ o ≤ 0x1F) ∨ (0x24 ≤ o ∧ o ≤ 0x2F) ∨
      (0x34 ≤ o ∧ o ≤ 0x3F) ∨ (0x41 ≤ o ∧ o ≤ 0x4F) ∨ (0x51 ≤ o ∧ o ≤ 0xFF)
    (illegal → ∃ t, step (s.present w) = .next t ∧ Faulted s t .illegalCommand ∧ rspFaultO t = some 1#1 ∧
      rspCauseO t = some 2#2) ∧
      (¬ illegal → ∃ i, decode w = .ok i)

/-- R53: format N ignores the operand field: all its values select the same behaviour and none faults; the word the
assembler writes has the field 0. -/
def Obligations.FormatNIgnoresOperand : Prop :=
  ∀ (i : Instr) (d : Word) (s : State), i.format = .N →
    operandField i = 0#64 ∧ step (s.present (opcodeOf i ++ d)) = step (s.present (encode i)) ∧
      ∃ t, step (s.present (opcodeOf i ++ d)) = .next t ∧ Completed s t

/-- Words written out from the spec's encoding, one or more of each family, decode to the commands they stand for
(spec/30_encoding.md R50, R56). -/
def Obligations.SampleWordsDecode : Prop :=
  decode 0x018000000000000001#72 = .ok (.load 0x8000000000000001#64) ∧
  decode 0x10891087B8E3B70CB1#72 = .ok (.add 9876543210987654321#64) ∧
  decode 0x12000000000000000A#72 = .ok (.mul 10#64) ∧
  decode 0x1500000000DEADBEEF#72 = .ok .inc ∧
  decode 0x21000000000000003F#72 = .ok (.asr 63#64) ∧
  decode 0x328000000000000003#72 = .ok (.xor 0x8000000000000003#64) ∧
  decode 0x401999999999999999#72 = .ok (.cmp 1844674407370955161#64) ∧
  decode 0x500000000000000000#72 = .ok .todec

/-! ### The step, faults and reset -/

/-- A step runs the decoded command: when the host's next event is a word that decodes to a well-formed command, the
step is that command's `exec` at the state with the event taken off the host's stream (spec/00_scope.md R11; the stream
is the model's, log entry 1). -/
def Obligations.StepRunsDecodedCommand : Prop :=
  ∀ (s : State) (w : CommandWord) (rest : List HostEvent) (i : Instr),
    s.inputs = .command w :: rest → decode w = .ok i → i.wellFormed = true →
      step s = exec i { s with inputs := rest }

/-- R182: every accepted command gets its response, in the step that takes it (spec/20_memory.md R44: one command, one
step). A reset that intervenes is another event of the host. -/
def Obligations.EveryCommandGetsResponse : Prop :=
  ∀ (s : State) (w : CommandWord) (rest : List HostEvent), s.inputs = .command w :: rest →
    ∃ t r, step s = .next t ∧ t.rsp = some r ∧ t.inputs = rest

/-- With nothing offered the core holds its state (spec/60_exceptions.md R168). That the response port empties is the
model's choice (log entry 2). -/
def Obligations.IdleCoreHoldsState : Prop :=
  ∀ s : State, s.inputs = [] → ∃ t, step s = .next t ∧ SameArch s t ∧ t.rsp = none ∧ t.inputs = []

/-- R33: after reset every register is 0 and the core is not busy. -/
def Obligations.ResetValues : Prop :=
  State.reset.accH = 0#1 ∧ State.reset.accL = 0#63 ∧ State.reset.flags = 0#6 ∧
    (∀ i, i < 20 → decDigit State.reset.dec i = 0#4) ∧ State.reset.dlen = 0#5 ∧ cmdReadyO State.reset = 1#1

/-- A reset between two commands, or on a command in flight (spec/70_reset_and_hazards.md R170, R171), gives the reset
state from every state, with no response and none of the command's effects; and a reset is the only way in which a
command gets no response. That a reset between commands leaves the response port empty is the model's choice (log
entry 2), and so is that a reset keeps the events that follow it in the host's stream (log entry 1). -/
def Obligations.ResetFromEveryState : Prop :=
  (∀ (s : State) (w : CommandWord) (rest : List HostEvent),
    (s.inputs = .reset :: rest ∨ s.inputs = .abandoned w :: rest) →
      ∃ t, step s = .next t ∧ SameArch State.reset t ∧ cmdReadyO t = 1#1 ∧ t.rsp = none ∧ t.inputs = rest) ∧
  ∀ s t : State, step s = .next t → t.rsp = none →
    s.inputs = [] ∨ (∃ rest, s.inputs = .reset :: rest) ∨ ∃ w rest, s.inputs = .abandoned w :: rest

/-- R153: the faults are these two, raised exactly then, with the cause codes 1 and 2. -/
def Obligations.ExactlyTwoFaults : Prop :=
  ∀ (s t : State) (w : CommandWord), step (s.present w) = .next t →
    (t.rsp = some (.faulted .divisionByZero) ↔
      (opcField w = 0x13#8 ∨ opcField w = 0x14#8) ∧ opdField w = 0#64) ∧
    (t.rsp = some (.faulted .illegalCommand) ↔ ∀ i, decode w ≠ .ok i) ∧
    (t.rsp = some (.faulted .divisionByZero) ↔ rspCauseO t = some 1#2) ∧
    (t.rsp = some (.faulted .illegalCommand) ↔ rspCauseO t = some 2#2)

/-- R156: a fault has no effect but its response, over every step. -/
def Obligations.FaultChangesNothing : Prop :=
  ∀ (s t : State) (c : Cause), step s = .next t → t.rsp = some (.faulted c) → SameArch s t

/-- After a fault the next command runs as if the faulting one had not been sent (spec/60_exceptions.md R157, R158). -/
def Obligations.FaultLeavesNoTrace : Prop :=
  ∀ (s t : State) (w v : CommandWord) (c : Cause),
    step (s.present w) = .next t → t.rsp = some (.faulted c) → step (t.present v) = step (s.present v)

/-- R155 and R54: the response as one number, by response. -/
def Obligations.ResponseNumbers : Prop :=
  (∀ r : Response, responseBits r = 0b000#3 ∨ responseBits r = 0b101#3 ∨ responseBits r = 0b110#3) ∧
  (∀ r : Response, faultField r = 0#1 ↔ r = .completed) ∧
  causeField .completed = 0#2 ∧ causeField (.faulted .divisionByZero) = 1#2 ∧
  causeField (.faulted .illegalCommand) = 2#2 ∧ ∀ r : Response, causeField r ≠ 3#2

/-- The output ports show the registers, bit for bit (spec/20_memory.md R41, spec/10_state.md R23, R26). -/
def Obligations.PortsShowRegisters : Prop :=
  ∀ s : State, (accO s).toNat = s.accL.toNat + s.accH.toNat * 2 ^ 63 ∧ (accO s).getLsbD 63 = s.accH.getLsbD 0 ∧
    (∀ i, i < 63 → (accO s).getLsbD i = s.accL.getLsbD i) ∧
    (∀ i j, i < 20 → j < 4 → (decO s).getLsbD (4 * i + j) = (decDigit s.dec i).getLsbD j) ∧
    flagsO s = s.flags ∧ dlenO s = s.dlen

/-! ### Whole-machine rules -/

/-- The invariant holds at reset: at most one flag is 1 (spec/10_state.md R24), and DEC and DLEN are what R26 and R27
allow. -/
def Obligations.InvariantAtReset : Prop := Inv State.reset

/-- Every step from any state that meets the invariant keeps it (spec/10_state.md R24, R26, R27). -/
def Obligations.StepKeepsInvariant : Prop :=
  ∀ s t : State, Inv s → step s = .next t → Inv t

/-- R23, with R24's zeros: what each flag means after any command that completes, and that each command writes all six. -/
def Obligations.FlagsMeaning : Prop :=
  ∀ (i : Instr) (s t : State), exec i s = .next t → t.rsp = some .completed →
    (t.flags.getLsbD 0 = true ↔ (∃ b, i = .add b ∧ 2 ^ 64 ≤ s.accVal + b.toNat) ∨ (i = .inc ∧ 2 ^ 64 ≤ s.accVal + 1)) ∧
    (t.flags.getLsbD 1 = true ↔ (∃ b, i = .sub b ∧ s.accVal < b.toNat) ∨ (i = .dec ∧ s.accVal < 1)) ∧
    (t.flags.getLsbD 2 = true ↔ ∃ b, i = .mul b ∧ 2 ^ 64 ≤ s.accVal * b.toNat) ∧
    (t.flags.getLsbD 3 = true ↔ ∃ b, i = .cmp b ∧ s.accVal = b.toNat) ∧
    (t.flags.getLsbD 4 = true ↔ ∃ b, i = .cmp b ∧ s.accVal < b.toNat) ∧
    (t.flags.getLsbD 5 = true ↔ ∃ b, i = .cmp b ∧ b.toNat < s.accVal)

/-- What a command gives depends on ACC and the command alone: no command reads FLAGS, DEC or DLEN
(spec/10_state.md R24, R26, R27), and no response or earlier history enters. -/
def Obligations.ResultDependsOnAccAlone : Prop :=
  ∀ (i : Instr) (s t s' t' : State), s.accH = s'.accH → s.accL = s'.accL → exec i s = .next t → exec i s' = .next t' →
    t.rsp = t'.rsp ∧ t.accH = t'.accH ∧ t.accL = t'.accL ∧
      (t.rsp = some .completed → t.flags = t'.flags) ∧
      (i = .todec → t.dec = t'.dec ∧ t.dlen = t'.dlen)

/-- DEC and DLEN change in no step but a TODEC command and a reset (spec/10_state.md R27, spec/47_decimal.md R146). -/
def Obligations.OnlyTodecWritesDecimal : Prop :=
  ∀ s t : State, step s = .next t → KeepsDecimal s t ∨
    (∃ w rest, s.inputs = .command w :: rest ∧ opcField w = 0x50#8) ∨
    (∃ rest, s.inputs = .reset :: rest) ∨ ∃ w rest, s.inputs = .abandoned w :: rest

/-- The host's stream is run in order (spec/20_memory.md R45, item 1; spec/70_reset_and_hazards.md R183): with the words
placed ahead of the host's stream, as many steps of the machine as there are words give the final state of the run, and
the response it holds is the run's last. The stream is the model's (log entry 1), and so is the held response (log
entry 2). -/
def Obligations.StreamRunsWordsInOrder : Prop :=
  ∀ (ws : List CommandWord) (s t : State) (rs : List Response), runWords ws s = some (t, rs) →
    Sys2Proof.core.run ws.length { s with inputs := ws.map .command ++ s.inputs } = .next t ∧
      (ws ≠ [] → t.rsp = rs.getLast?)

/-- A run always ends, with exactly one response for each word, and leaves the host's stream as it was
(spec/20_memory.md R41, spec/70_reset_and_hazards.md R182, R183). -/
def Obligations.RunsAnswerEveryWord : Prop :=
  ∀ (ws : List CommandWord) (s : State),
    ∃ t rs, runWords ws s = some (t, rs) ∧ rs.length = ws.length ∧ t.inputs = s.inputs

/-! ### Results, one command at a time, with what stays unchanged -/

/-- R70, LOAD. -/
def Obligations.LoadResult : Prop :=
  ∀ (b : Word) (s : State), ∃ t, exec (.load b) s = .next t ∧ Completed s t ∧ KeepsDecimal s t ∧
    t.accH = b.extractLsb' 63 1 ∧ t.accL = b.extractLsb' 0 63 ∧ t.accVal = b.toNat ∧ t.flags = 0#6 ∧
    opcodeOf (.load b) = 0x01#8 ∧ (Instr.load b).format = .V

/-- R76, ADD: bit 0 of FLAGS is C, the other five are 0. -/
def Obligations.AddResult : Prop :=
  ∀ (b : Word) (s : State), ∃ t, exec (.add b) s = .next t ∧ Completed s t ∧ KeepsDecimal s t ∧
    t.accVal = (s.accVal + b.toNat) % 2 ^ 64 ∧
    (∀ i, t.flags.getLsbD i = true ↔ i = 0 ∧ 2 ^ 64 ≤ s.accVal + b.toNat) ∧
    opcodeOf (.add b) = 0x10#8 ∧ (Instr.add b).format = .V

/-- R80, SUB: bit 1 of FLAGS is B, the other five are 0. -/
def Obligations.SubResult : Prop :=
  ∀ (b : Word) (s : State), ∃ t, exec (.sub b) s = .next t ∧ Completed s t ∧ KeepsDecimal s t ∧
    (t.accVal : Int) = ((s.accVal : Int) - (b.toNat : Int)) % 2 ^ 64 ∧
    (∀ i, t.flags.getLsbD i = true ↔ i = 1 ∧ s.accVal < b.toNat) ∧
    opcodeOf (.sub b) = 0x11#8 ∧ (Instr.sub b).format = .V

/-- R92, MUL: bit 2 of FLAGS is V, the other five are 0. -/
def Obligations.MulResult : Prop :=
  ∀ (b : Word) (s : State), ∃ t, exec (.mul b) s = .next t ∧ Completed s t ∧ KeepsDecimal s t ∧
    t.accVal = (s.accVal * b.toNat) % 2 ^ 64 ∧
    (∀ i, t.flags.getLsbD i = true ↔ i = 2 ∧ 2 ^ 64 ≤ s.accVal * b.toNat) ∧
    opcodeOf (.mul b) = 0x12#8 ∧ (Instr.mul b).format = .V

/-- R101, DIV, for every divisor: a divisor other than 0 completes, 0 faults. -/
def Obligations.DivResult : Prop :=
  ∀ (b : Word) (s : State),
    (b ≠ 0#64 → ∃ t, exec (.div b) s = .next t ∧ Completed s t ∧ KeepsDecimal s t ∧
      t.accVal = s.accVal / b.toNat ∧ t.flags = 0#6) ∧
    (b = 0#64 → ∃ t, exec (.div b) s = .next t ∧ Faulted s t .divisionByZero) ∧
    opcodeOf (.div b) = 0x13#8 ∧ (Instr.div b).format = .V

/-- R102, MOD, for every divisor: a divisor other than 0 completes, 0 faults. -/
def Obligations.ModResult : Prop :=
  ∀ (b : Word) (s : State),
    (b ≠ 0#64 → ∃ t, exec (.mod b) s = .next t ∧ Completed s t ∧ KeepsDecimal s t ∧
      t.accVal = s.accVal % b.toNat ∧ t.flags = 0#6) ∧
    (b = 0#64 → ∃ t, exec (.mod b) s = .next t ∧ Faulted s t .divisionByZero) ∧
    opcodeOf (.mod b) = 0x14#8 ∧ (Instr.mod b).format = .V

/-- R84, INC: bit 0 of FLAGS is C, the other five are 0; result and C are those of ADD 1. -/
def Obligations.IncResult : Prop :=
  ∀ s : State, ∃ t, exec .inc s = .next t ∧ Completed s t ∧ KeepsDecimal s t ∧
    t.accVal = (s.accVal + 1) % 2 ^ 64 ∧
    (∀ i, t.flags.getLsbD i = true ↔ i = 0 ∧ s.accVal = 2 ^ 64 - 1) ∧
    exec (.add 1#64) s = .next t ∧ opcodeOf .inc = 0x15#8 ∧ Instr.inc.format = .N

/-- R86, DEC: bit 1 of FLAGS is B, the other five are 0; result and B are those of SUB 1. -/
def Obligations.DecResult : Prop :=
  ∀ s : State, ∃ t, exec .dec s = .next t ∧ Completed s t ∧ KeepsDecimal s t ∧
    (t.accVal : Int) = ((s.accVal : Int) - 1) % 2 ^ 64 ∧
    (∀ i, t.flags.getLsbD i = true ↔ i = 1 ∧ s.accVal = 0) ∧
    exec (.sub 1#64) s = .next t ∧ opcodeOf .dec = 0x16#8 ∧ Instr.dec.format = .N

/-- R117 and R118, ASL and LSL with the ranges of R114, for either value of SHIFT_OVERWIDTH: the two give the same. -/
def Obligations.LeftShiftResult : Prop :=
  ∀ (n : Word) (s : State), ∃ t, exec (.asl n) s = .next t ∧ exec (.lsl n) s = .next t ∧ Completed s t ∧
    KeepsDecimal s t ∧ t.flags = 0#6 ∧
    (n.toNat < 64 → t.accVal = (s.accVal * 2 ^ n.toNat) % 2 ^ 64) ∧
    (64 ≤ n.toNat → n.toNat < 2 ^ 63 → t.accVal =
      if Config.shiftOverwidth = .zero then 0 else (s.accVal * 2 ^ (n.toNat % 64)) % 2 ^ 64) ∧
    (2 ^ 63 ≤ n.toNat → t.accVal = 0) ∧
    opcodeOf (.asl n) = 0x20#8 ∧ opcodeOf (.lsl n) = 0x22#8 ∧ (Instr.asl n).format = .S ∧ (Instr.lsl n).format = .S

/-- R119 and R120, ASR and LSR with the ranges of R114, for either value of SHIFT_OVERWIDTH: zeros enter, and the two
give the same. -/
def Obligations.RightShiftResult : Prop :=
  ∀ (n : Word) (s : State), ∃ t, exec (.asr n) s = .next t ∧ exec (.lsr n) s = .next t ∧ Completed s t ∧
    KeepsDecimal s t ∧ t.flags = 0#6 ∧
    (n.toNat < 64 → t.accVal = s.accVal / 2 ^ n.toNat) ∧
    (64 ≤ n.toNat → n.toNat < 2 ^ 63 → t.accVal =
      if Config.shiftOverwidth = .zero then 0 else s.accVal / 2 ^ (n.toNat % 64)) ∧
    (2 ^ 63 ≤ n.toNat → t.accVal = 0) ∧
    opcodeOf (.asr n) = 0x21#8 ∧ opcodeOf (.lsr n) = 0x23#8 ∧ (Instr.asr n).format = .S ∧ (Instr.lsr n).format = .S

/-- R126, AND, on the pair and on the pattern. -/
def Obligations.AndResult : Prop :=
  ∀ (b : Word) (s : State), ∃ t, exec (.and b) s = .next t ∧ Completed s t ∧ KeepsDecimal s t ∧ t.flags = 0#6 ∧
    t.accL = s.accL &&& b.extractLsb' 0 63 ∧ t.accH = s.accH &&& b.extractLsb' 63 1 ∧ t.accPat = s.accPat &&& b ∧
    opcodeOf (.and b) = 0x30#8 ∧ (Instr.and b).format = .V

/-- R127, OR, on the pair and on the pattern. -/
def Obligations.OrResult : Prop :=
  ∀ (b : Word) (s : State), ∃ t, exec (.or b) s = .next t ∧ Completed s t ∧ KeepsDecimal s t ∧ t.flags = 0#6 ∧
    t.accL = s.accL ||| b.extractLsb' 0 63 ∧ t.accH = s.accH ||| b.extractLsb' 63 1 ∧ t.accPat = s.accPat ||| b ∧
    opcodeOf (.or b) = 0x31#8 ∧ (Instr.or b).format = .V

/-- R128, XOR, on the pair and on the pattern. -/
def Obligations.XorResult : Prop :=
  ∀ (b : Word) (s : State), ∃ t, exec (.xor b) s = .next t ∧ Completed s t ∧ KeepsDecimal s t ∧ t.flags = 0#6 ∧
    t.accL = s.accL ^^^ b.extractLsb' 0 63 ∧ t.accH = s.accH ^^^ b.extractLsb' 63 1 ∧ t.accPat = s.accPat ^^^ b ∧
    opcodeOf (.xor b) = 0x32#8 ∧ (Instr.xor b).format = .V

/-- R129, NOT, on the pair, on the pattern and on the magnitude. -/
def Obligations.NotResult : Prop :=
  ∀ s : State, ∃ t, exec .not s = .next t ∧ Completed s t ∧ KeepsDecimal s t ∧ t.flags = 0#6 ∧
    t.accL.toNat = 2 ^ 63 - 1 - s.accL.toNat ∧ t.accH.toNat = 1 - s.accH.toNat ∧ t.accPat = ~~~ s.accPat ∧
    t.accVal = 2 ^ 64 - 1 - s.accVal ∧ opcodeOf .not = 0x33#8 ∧ Instr.not.format = .N

/-- R136, CMP: EQ, LT, GT are bits 3, 4, 5 of FLAGS by the order of R135 on the pairs, C, B, V are 0, and nothing else
changes. -/
def Obligations.CmpResult : Prop :=
  ∀ (b : Word) (s : State), ∃ t, exec (.cmp b) s = .next t ∧ Completed s t ∧ KeepsAcc s t ∧ KeepsDecimal s t ∧
    (t.flags.getLsbD 0 = false ∧ t.flags.getLsbD 1 = false ∧ t.flags.getLsbD 2 = false) ∧
    (t.flags.getLsbD 3 = true ↔ s.accH = b.extractLsb' 63 1 ∧ s.accL = b.extractLsb' 0 63) ∧
    (t.flags.getLsbD 4 = true ↔ (s.accH = 0#1 ∧ b.extractLsb' 63 1 = 1#1) ∨
      (s.accH = b.extractLsb' 63 1 ∧ s.accL.toNat < (b.extractLsb' 0 63).toNat)) ∧
    (t.flags.getLsbD 5 = true ↔ (s.accH = 1#1 ∧ b.extractLsb' 63 1 = 0#1) ∨
      (s.accH = b.extractLsb' 63 1 ∧ (b.extractLsb' 0 63).toNat < s.accL.toNat)) ∧
    opcodeOf (.cmp b) = 0x40#8 ∧ (Instr.cmp b).format = .V

/-- R141, TODEC: the twenty digits, the length as the least n with a < 10^n (or 1), ACC unchanged. -/
def Obligations.TodecResult : Prop :=
  ∀ s : State, ∃ t, exec .todec s = .next t ∧ Completed s t ∧ KeepsAcc s t ∧ t.flags = 0#6 ∧
    (∀ i, i < 20 → (decDigit t.dec i).toNat = s.accVal / 10 ^ i % 10) ∧
    (1 ≤ t.dlen.toNat ∧ t.dlen.toNat ≤ 20 ∧ s.accVal < 10 ^ t.dlen.toNat ∧
      ∀ n, 1 ≤ n → s.accVal < 10 ^ n → t.dlen.toNat ≤ n) ∧
    (∀ i, i < 20 → t.dlen.toNat ≤ i → decDigit t.dec i = 0#4) ∧
    (s.accVal ≠ 0 → decDigit t.dec (t.dlen.toNat - 1) ≠ 0#4) ∧
    opcodeOf .todec = 0x50#8 ∧ Instr.todec.format = .N

/-- R144: the three boundary renderings. -/
def Obligations.TodecBoundaries : Prop :=
  ∀ s t : State, exec .todec s = .next t →
    (s.accVal = 2 ^ 63 - 1 → decO t = 0x09223372036854775807#80 ∧ dlenO t = 19#5) ∧
    (s.accVal = 2 ^ 63 → decO t = 0x09223372036854775808#80 ∧ dlenO t = 19#5) ∧
    (s.accVal = 2 ^ 64 - 1 → decO t = 0x18446744073709551615#80 ∧ dlenO t = 20#5)

/-- R137: after a CMP exactly one of EQ, LT, GT is 1, and exchanging the roles of ACC and operand exchanges LT and GT and
keeps EQ. -/
def Obligations.CmpTrichotomy : Prop :=
  ∀ (b : Word) (s t u : State), exec (.cmp b) s = .next t → exec (.cmp s.accPat) (s.writeAcc b) = .next u →
    (flagEQ t.flags = true ∨ flagLT t.flags = true ∨ flagGT t.flags = true) ∧
    ¬ (flagEQ t.flags = true ∧ flagLT t.flags = true) ∧ ¬ (flagEQ t.flags = true ∧ flagGT t.flags = true) ∧
    ¬ (flagLT t.flags = true ∧ flagGT t.flags = true) ∧
    flagEQ u.flags = flagEQ t.flags ∧ flagLT u.flags = flagGT t.flags ∧ flagGT u.flags = flagLT t.flags

/-- R100: quotient and remainder are fixed uniquely by `a = q * b + r` and `0 <= r < b`, and neither command writes a
computed flag. -/
def Obligations.DivisionFixedByIdentity : Prop :=
  ∀ (b : Word) (s : State) (q r : Nat), b ≠ 0#64 → s.accVal = q * b.toNat + r → r < b.toNat →
    ∃ t u, exec (.div b) s = .next t ∧ exec (.mod b) s = .next u ∧ t.accVal = q ∧ u.accVal = r ∧
      t.flags = 0#6 ∧ u.flags = 0#6

/-! ### The reference datapaths compute the architectural results (R13) -/

/-- What spec/41_add_sub.md infers in R78: the adder of R77 gives the ACC and the C of ADD; R85: and of INC, with the
operand 1. -/
def Obligations.AddDatapathRefines : Prop :=
  ∀ (b : Word) (s t : State),
    (exec (.add b) s = .next t → t.acc = (addDatapath s.acc (Split.ofWord b)).1 ∧
      flagC t.flags = (addDatapath s.acc (Split.ofWord b)).2) ∧
    (exec .inc s = .next t → t.acc = (addDatapath s.acc ⟨0#1, 1#63⟩).1 ∧
      flagC t.flags = (addDatapath s.acc ⟨0#1, 1#63⟩).2)

/-- What spec/41_add_sub.md infers in R82: the subtractor of R81 gives the ACC and the B of SUB; R87: and of DEC, with the
operand 1. -/
def Obligations.SubDatapathRefines : Prop :=
  ∀ (b : Word) (s t : State),
    (exec (.sub b) s = .next t → t.acc = (subDatapath s.acc (Split.ofWord b)).1 ∧
      flagB t.flags = (subDatapath s.acc (Split.ofWord b)).2) ∧
    (exec .dec s = .next t → t.acc = (subDatapath s.acc ⟨0#1, 1#63⟩).1 ∧
      flagB t.flags = (subDatapath s.acc ⟨0#1, 1#63⟩).2)

/-- What spec/42_multiply.md infers in R94: the multiplier of R93, shortcuts, direct path and shifted addition, gives the
ACC and the V of MUL. -/
def Obligations.MulDatapathRefines : Prop :=
  ∀ (b : Word) (s t : State), exec (.mul b) s = .next t →
    t.acc = (mulDatapath s.acc (Split.ofWord b)).1 ∧ flagV t.flags = (mulDatapath s.acc (Split.ofWord b)).2

/-- What spec/43_divide_modulo.md infers in R106: the engine of R105 gives the ACC of DIV and of MOD. The depth of its
recursion is the model's choice (log entry 7). -/
def Obligations.DivModDatapathRefines : Prop :=
  ∀ (b : Word) (s t u : State), b ≠ 0#64 → exec (.div b) s = .next t → exec (.mod b) s = .next u →
    t.acc = (divModDatapath divModDepth s.acc (Split.ofWord b)).1 ∧
    u.acc = (divModDatapath divModDepth s.acc (Split.ofWord b)).2

/-- What spec/44_shift.md infers in R121 and R122: for an effective amount the pair shifters give the ACC of the four
shifts. -/
def Obligations.ShiftDatapathRefines : Prop :=
  ∀ (n : Word) (s : State) (e : Nat), shiftAmount Config.shiftOverwidth n = some e →
    ∃ t u, exec (.lsl n) s = .next t ∧ exec (.asl n) s = .next t ∧ exec (.lsr n) s = .next u ∧
      exec (.asr n) s = .next u ∧ t.acc = shiftLeftPair s.acc e ∧ u.acc = shiftRightPair s.acc e

/-- What spec/47_decimal.md infers in R143: the digit adder of R142 gives the DEC and the DLEN of TODEC. -/
def Obligations.DecimalDatapathRefines : Prop :=
  ∀ s t : State, exec .todec s = .next t →
    t.dec = decimalWord (decimalDatapathDigits s.acc) ∧ t.dlen.toNat = decimalDatapathLength s.acc

/-! ### Laws of the families -/

/-- What spec/10_state.md infers in R25: flag and wrapped result together are exact. -/
def Obligations.FlagsMakeResultsExact : Prop :=
  ∀ (b : Word) (s t : State),
    (exec (.add b) s = .next t → s.accVal + b.toNat = t.accVal + (flagC t.flags).toNat * 2 ^ 64) ∧
    (exec .inc s = .next t → s.accVal + 1 = t.accVal + (flagC t.flags).toNat * 2 ^ 64) ∧
    (exec (.sub b) s = .next t →
      (s.accVal : Int) - (b.toNat : Int) = (t.accVal : Int) - ((flagB t.flags).toNat : Int) * 2 ^ 64) ∧
    (exec .dec s = .next t → (s.accVal : Int) - 1 = (t.accVal : Int) - ((flagB t.flags).toNat : Int) * 2 ^ 64) ∧
    (exec (.mul b) s = .next t → (flagV t.flags = false → s.accVal * b.toNat = t.accVal) ∧
      (flagV t.flags = true → 2 ^ 64 ≤ s.accVal * b.toNat ∧ t.accVal = s.accVal * b.toNat % 2 ^ 64))

/-- What spec/41_add_sub.md infers in R79: ADD is commutative, ADD 0 is the identity on ACC, and C is 1 exactly when the
wrapped result is smaller than a, and then also smaller than b. -/
def Obligations.AddLaws : Prop :=
  ∀ (b : Word) (s t : State), exec (.add b) s = .next t →
    (exec (.add s.accPat) (s.writeAcc b) = .next t) ∧ (b = 0#64 → KeepsAcc s t) ∧
    (flagC t.flags = true ↔ t.accVal < s.accVal) ∧ (flagC t.flags = true → t.accVal < b.toNat)

/-- Add/subtract inverse, spec/41_add_sub.md R83 and R87: ADD b then SUB b restores ACC, and so do SUB b then ADD b, INC
then DEC, DEC then INC. That B after the SUB is the C after the ADD is what R83 infers. -/
def Obligations.AddSubInverse : Prop :=
  ∀ (b : Word) (s t u : State),
    (exec (.add b) s = .next t → exec (.sub b) t = .next u → KeepsAcc s u ∧ flagB u.flags = flagC t.flags) ∧
    (exec (.sub b) s = .next t → exec (.add b) t = .next u → KeepsAcc s u) ∧
    (exec .inc s = .next t → exec .dec t = .next u → KeepsAcc s u) ∧
    (exec .dec s = .next t → exec .inc t = .next u → KeepsAcc s u)

/-- Laws of MUL, spec/42_multiply.md R96 (the symmetry and the identities are what the spec infers there): result and V
are symmetric, MUL 0 clears ACC, MUL 1 is the identity, and DIV b restores ACC when V is 0 and b is not 0. -/
def Obligations.MulLaws : Prop :=
  ∀ (b : Word) (s t : State), exec (.mul b) s = .next t →
    exec (.mul s.accPat) (s.writeAcc b) = .next t ∧ (b = 0#64 → t.accVal = 0) ∧ (b = 1#64 → KeepsAcc s t) ∧
    (flagV t.flags = false → b ≠ 0#64 → ∃ u, exec (.div b) t = .next u ∧ KeepsAcc s u)

/-- Bit lengths and overflow, what spec/42_multiply.md infers in R95 items 2, 3 and 4. -/
def Obligations.MulOverflowByLength : Prop :=
  ∀ (b : Word) (s t : State), exec (.mul b) s = .next t →
    (bitLength s.accVal + bitLength b.toNat ≤ 63 → flagV t.flags = false ∧ t.accH = 0#1) ∧
    (bitLength s.accVal + bitLength b.toNat = 64 → flagV t.flags = false ∧
      (t.accH = 1#1 ↔ 2 ^ 63 ≤ s.accVal * b.toNat)) ∧
    (66 ≤ bitLength s.accVal + bitLength b.toNat → flagV t.flags = true)

/-- The division identity as a run, what spec/43_divide_modulo.md infers in R107: LOAD q, MUL b, ADD r gives back a with
V = 0 and C = 0; r < b; q <= a; and q = 0, r = a when b > a. -/
def Obligations.DivisionIdentityRun : Prop :=
  ∀ (b : Word) (s t u : State), b ≠ 0#64 → exec (.div b) s = .next t → exec (.mod b) s = .next u →
    u.accVal < b.toNat ∧ t.accVal ≤ s.accVal ∧ (s.accVal < b.toNat → t.accVal = 0 ∧ u.accVal = s.accVal) ∧
    ∃ x y z, issue (.load t.accPat) s = some x ∧ issue (.mul b) x = some y ∧ issue (.add u.accPat) y = some z ∧
      flagV y.flags = false ∧ flagC z.flags = false ∧ KeepsAcc s z

/-- Laws of the shifter, what spec/44_shift.md infers in R123, for amounts 0 to 63: a left shift is the result of MUL 2^n,
a right shift that of DIV 2^n; LSL then LSR clears the top n bits and LSR then LSL the bottom n. -/
def Obligations.ShiftLaws : Prop :=
  ∀ (n : Word) (s t u : State), n.toNat ≤ 63 → exec (.lsl n) s = .next t → exec (.lsr n) s = .next u →
    (∃ x, exec (.mul (BitVec.ofNat 64 (2 ^ n.toNat))) s = .next x ∧ KeepsAcc x t) ∧
    (∃ x, exec (.div (BitVec.ofNat 64 (2 ^ n.toNat))) s = .next x ∧ KeepsAcc x u) ∧
    (∃ x, exec (.lsr n) t = .next x ∧
      ∀ i, i < 64 → x.accPat.getLsbD i = (decide (i < 64 - n.toNat) && s.accPat.getLsbD i)) ∧
    (∃ x, exec (.lsl n) u = .next x ∧
      ∀ i, i < 64 → x.accPat.getLsbD i = (decide (n.toNat ≤ i) && s.accPat.getLsbD i))

/-- Laws of the bitwise family, what spec/45_bitwise.md infers in R130. -/
def Obligations.BitwiseLaws : Prop :=
  ∀ (q : Word) (s t u : State),
    (∀ i : Instr, (i = .and q ∨ i = .or q) → exec i s = .next t → exec i t = .next u → KeepsAcc t u) ∧
    (exec (.xor q) s = .next t → exec (.xor q) t = .next u → KeepsAcc s u) ∧
    (exec (.and q) s = .next t → exec (.and s.accPat) (s.writeAcc q) = .next t) ∧
    (exec (.or q) s = .next t → exec (.or s.accPat) (s.writeAcc q) = .next t) ∧
    (exec (.xor q) s = .next t → exec (.xor s.accPat) (s.writeAcc q) = .next t) ∧
    exec .not s = exec (.xor 0xFFFFFFFFFFFFFFFF#64) s ∧
    (exec .not s = .next t → s.accVal + t.accVal = 2 ^ 64 - 1)

/-! ### The host's procedures and the assembler -/

/-- The parse procedure from any state (spec/47_decimal.md R147, R151): anything but a non-empty list of digits below a
radix of at least 2 is rejected with no step taken (log entry 8), and such a list is accepted with its value in ACC
exactly when the value is below 2^64, and rejected otherwise, which R151 infers. -/
def Obligations.ParseAcceptsExactly : Prop :=
  ∀ (r : Word) (ds : List Word) (s : State),
    (r.toNat < 2 ∨ ds = [] ∨ (∃ d ∈ ds, r.toNat ≤ d.toNat) → parse r ds s = .rejected s) ∧
    (2 ≤ r.toNat → ds ≠ [] → (∀ d ∈ ds, d.toNat < r.toNat) →
      (numeralValue r.toNat ds < 2 ^ 64 → ∃ t, parse r ds s = .accepted t ∧ t.accVal = numeralValue r.toNat ds) ∧
      (2 ^ 64 ≤ numeralValue r.toNat ds → ∃ t, parse r ds s = .rejected t))

/-- The round trip of spec/47_decimal.md R151 (the source's 'parse(to_string(v)) == v'): the digits that TODEC leaves,
parsed in radix ten, give the value back. -/
def Obligations.TodecParseRoundTrip : Prop :=
  ∀ s t : State, exec .todec s = .next t →
    ∃ u, parse 10#64 (renderedDigits t) t = .accepted u ∧ KeepsAcc s u

/-- R61: each pseudo-instruction is assembled to the word of its expansion, and what CLR, TST and MAX mean. -/
def Obligations.PseudoInstructions : Prop :=
  assemble ⟨.clr, none⟩ = assemble ⟨.load, some 0⟩ ∧ assemble ⟨.clr, none⟩ = .ok (encode (.load 0#64)) ∧
  assemble ⟨.tst, none⟩ = assemble ⟨.cmp, some 0⟩ ∧ assemble ⟨.tst, none⟩ = .ok (encode (.cmp 0#64)) ∧
  assemble ⟨.max, none⟩ = assemble ⟨.load, some 0xFFFFFFFFFFFFFFFF⟩ ∧
  assemble ⟨.max, none⟩ = .ok (encode (.load 0xFFFFFFFFFFFFFFFF#64)) ∧
  (∀ n : Int, assemble ⟨.shl, some n⟩ = assemble ⟨.lsl, some n⟩) ∧
  ∀ s : State, ∃ t u v, exec (.load 0#64) s = .next t ∧ t.accVal = 0 ∧
    exec (.cmp 0#64) s = .next u ∧ (flagEQ u.flags = true ↔ s.accVal = 0) ∧ (flagGT u.flags = true ↔ s.accVal ≠ 0) ∧
    flagLT u.flags = false ∧
    exec (.load 0xFFFFFFFFFFFFFFFF#64) s = .next v ∧ v.accVal = 2 ^ 64 - 1

/-- The assembler emits `cmd = OPC * 2^64 + literal` for a literal of 0 to 2^64 - 1 and refuses one outside that range;
INC, DEC, NOT and TODEC have the operand field 0; CLR, TST and MAX have the words of LOAD 0, CMP 0 and LOAD of the
largest value (spec/30_encoding.md R60, R61). That a literal is refused on format N and asked for on the others is log
entry 9. -/
def Obligations.AssembledWords : Prop :=
  (∀ (m : Mnemonic) (v : Int),
    (m.format ≠ .N → 0 ≤ v → v < 2 ^ 64 → ∃ w, assemble ⟨m, some v⟩ = .ok w ∧
      (w.toNat : Int) = (opcodeOf (expand m 0#64)).toNat * 2 ^ 64 + v) ∧
    (m.format ≠ .N → v < 0 → assemble ⟨m, some v⟩ = .error .negativeLiteral) ∧
    (m.format ≠ .N → 2 ^ 64 ≤ v → assemble ⟨m, some v⟩ = .error .literalOutOfRange) ∧
    (m.format ≠ .N → assemble ⟨m, none⟩ = .error .missingLiteral) ∧
    (m.format = .N → assemble ⟨m, some v⟩ = .error .unexpectedLiteral) ∧
    (m = .inc ∨ m = .dec ∨ m = .not ∨ m = .todec → ∃ w, assemble ⟨m, none⟩ = .ok w ∧
      w.toNat = (opcodeOf (expand m 0#64)).toNat * 2 ^ 64)) ∧
  assemble ⟨.clr, none⟩ = .ok 0x010000000000000000#72 ∧ assemble ⟨.tst, none⟩ = .ok 0x400000000000000000#72 ∧
  assemble ⟨.max, none⟩ = .ok 0x01FFFFFFFFFFFFFFFF#72
end

