-- ==== Sys2Proof/Laws/Decode.lean ====
section
/-! SUPPORT. The fields of an encoded command. -/

namespace Sys2Proof

/-- Every command is well-formed: no operand value is malformed or reserved (R52, R58). -/
theorem Instr.wellFormed_true (i : Instr) : i.wellFormed = true := by
  cases i <;> rfl

/-- The bits of a command word made of its two fields (R50). -/
theorem commandWord_getLsbD (o : BitVec 8) (d : Word) (i : Nat) :
    (o ++ d : CommandWord).getLsbD i = if i < 64 then d.getLsbD i else o.getLsbD (i - 64) :=
  BitVec.getLsbD_append

@[simp] theorem opcField_append (o : BitVec 8) (d : Word) : opcField (o ++ d) = o := by
  apply BitVec.eq_of_getLsbD_eq
  intro i hi
  simp [opcField, commandWord_getLsbD, hi]

@[simp] theorem opdField_append (o : BitVec 8) (d : Word) : opdField (o ++ d) = d := by
  apply BitVec.eq_of_getLsbD_eq
  intro i hi
  simp [opdField, commandWord_getLsbD, hi]

/-- A command word is its two fields. -/
theorem commandWord_eq (w : CommandWord) : w = opcField w ++ opdField w := by
  apply BitVec.eq_of_getLsbD_eq
  intro i hi
  rw [commandWord_getLsbD]
  split
  · simp [opdField, *]
  · have h : 64 + (i - 64) = i := by omega
    have h' : i - 64 < 8 := by omega
    simp [opcField, h, h']

@[simp] theorem opcField_encode (i : Instr) : opcField (encode i) = opcodeOf i := opcField_append _ _

@[simp] theorem opdField_encode (i : Instr) : opdField (encode i) = operandField i := opdField_append _ _

end Sys2Proof
end

