-- ==== Sys2Proof/Laws/HostProcedures.lean ====
section
/-! SUPPORT. What the host checks before it parses, and one step of a run of the machine. -/

namespace Sys2Proof.Machine

open Sys2Proof

/-- What the host's checks say (R147, R152). -/
theorem parseable_iff (r : Word) (ds : List Word) :
    parseable r ds = true ↔ 2 ≤ r.toNat ∧ ds ≠ [] ∧ ∀ d ∈ ds, d.toNat < r.toNat := by
  simp [parseable, and_assoc]

/-- A run of the machine, by its first step. -/
theorem core_run_succ {n : Nat} {s t : State} (h : step s = .next t) :
    Sys2Proof.core.run (n + 1) s = Sys2Proof.core.run n t := by
  have k : Sys2Proof.core.step s = .next t := h
  simp only [Host.Core.run, k]

end Sys2Proof.Machine
end

