-- ==== Sys2Proof/Laws/State.lean ====
section
/-! SUPPORT. One lemma per field and per update of State, so that no proof unfolds a record update. Each is true by `rfl`
once the state is taken apart; taking it apart first keeps simp from closing such a step by evaluation. -/

namespace Sys2Proof.Machine

open Sys2Proof

@[simp] theorem State.writeAccPair_accH (s : State) (p : Split) : (s.writeAccPair p).accH = p.high := by cases s; rfl
@[simp] theorem State.writeAccPair_accL (s : State) (p : Split) : (s.writeAccPair p).accL = p.low := by cases s; rfl
@[simp] theorem State.writeAccPair_flags (s : State) (p : Split) : (s.writeAccPair p).flags = s.flags := by cases s; rfl
@[simp] theorem State.writeAccPair_dec (s : State) (p : Split) : (s.writeAccPair p).dec = s.dec := by cases s; rfl
@[simp] theorem State.writeAccPair_dlen (s : State) (p : Split) : (s.writeAccPair p).dlen = s.dlen := by cases s; rfl
@[simp] theorem State.writeAccPair_rsp (s : State) (p : Split) : (s.writeAccPair p).rsp = s.rsp := by cases s; rfl
@[simp] theorem State.writeAccPair_inputs (s : State) (p : Split) : (s.writeAccPair p).inputs = s.inputs := by cases s; rfl
@[simp] theorem State.writeAcc_accH (s : State) (v : Word) : (s.writeAcc v).accH = v.extractLsb' 63 1 := by cases s; rfl
@[simp] theorem State.writeAcc_accL (s : State) (v : Word) : (s.writeAcc v).accL = v.extractLsb' 0 63 := by cases s; rfl
@[simp] theorem State.writeAcc_flags (s : State) (v : Word) : (s.writeAcc v).flags = s.flags := by cases s; rfl
@[simp] theorem State.writeAcc_dec (s : State) (v : Word) : (s.writeAcc v).dec = s.dec := by cases s; rfl
@[simp] theorem State.writeAcc_dlen (s : State) (v : Word) : (s.writeAcc v).dlen = s.dlen := by cases s; rfl
@[simp] theorem State.writeAcc_rsp (s : State) (v : Word) : (s.writeAcc v).rsp = s.rsp := by cases s; rfl
@[simp] theorem State.writeAcc_inputs (s : State) (v : Word) : (s.writeAcc v).inputs = s.inputs := by cases s; rfl
@[simp] theorem State.writeDecimal_accH (s : State) (d : BitVec 80) (n : BitVec 5) : (s.writeDecimal d n).accH = s.accH := by cases s; rfl
@[simp] theorem State.writeDecimal_accL (s : State) (d : BitVec 80) (n : BitVec 5) : (s.writeDecimal d n).accL = s.accL := by cases s; rfl
@[simp] theorem State.writeDecimal_flags (s : State) (d : BitVec 80) (n : BitVec 5) : (s.writeDecimal d n).flags = s.flags := by cases s; rfl
@[simp] theorem State.writeDecimal_dec (s : State) (d : BitVec 80) (n : BitVec 5) : (s.writeDecimal d n).dec = d := by cases s; rfl
@[simp] theorem State.writeDecimal_dlen (s : State) (d : BitVec 80) (n : BitVec 5) : (s.writeDecimal d n).dlen = n := by cases s; rfl
@[simp] theorem State.writeDecimal_rsp (s : State) (d : BitVec 80) (n : BitVec 5) : (s.writeDecimal d n).rsp = s.rsp := by cases s; rfl
@[simp] theorem State.writeDecimal_inputs (s : State) (d : BitVec 80) (n : BitVec 5) : (s.writeDecimal d n).inputs = s.inputs := by cases s; rfl
@[simp] theorem State.complete_accH (s : State) (f : BitVec 6) : (s.complete f).accH = s.accH := by cases s; rfl
@[simp] theorem State.complete_accL (s : State) (f : BitVec 6) : (s.complete f).accL = s.accL := by cases s; rfl
@[simp] theorem State.complete_flags (s : State) (f : BitVec 6) : (s.complete f).flags = f := by cases s; rfl
@[simp] theorem State.complete_dec (s : State) (f : BitVec 6) : (s.complete f).dec = s.dec := by cases s; rfl
@[simp] theorem State.complete_dlen (s : State) (f : BitVec 6) : (s.complete f).dlen = s.dlen := by cases s; rfl
@[simp] theorem State.complete_rsp (s : State) (f : BitVec 6) : (s.complete f).rsp = some .completed := by cases s; rfl
@[simp] theorem State.complete_inputs (s : State) (f : BitVec 6) : (s.complete f).inputs = s.inputs := by cases s; rfl
@[simp] theorem State.raise_accH (s : State) (c : Cause) : (s.raise c).accH = s.accH := by cases s; rfl
@[simp] theorem State.raise_accL (s : State) (c : Cause) : (s.raise c).accL = s.accL := by cases s; rfl
@[simp] theorem State.raise_flags (s : State) (c : Cause) : (s.raise c).flags = s.flags := by cases s; rfl
@[simp] theorem State.raise_dec (s : State) (c : Cause) : (s.raise c).dec = s.dec := by cases s; rfl
@[simp] theorem State.raise_dlen (s : State) (c : Cause) : (s.raise c).dlen = s.dlen := by cases s; rfl
@[simp] theorem State.raise_rsp (s : State) (c : Cause) : (s.raise c).rsp = some (.faulted c) := by cases s; rfl
@[simp] theorem State.raise_inputs (s : State) (c : Cause) : (s.raise c).inputs = s.inputs := by cases s; rfl
@[simp] theorem State.takeIllegalCommand_accH (s : State) : (s.takeIllegalCommand).accH = s.accH := by cases s; rfl
@[simp] theorem State.takeIllegalCommand_accL (s : State) : (s.takeIllegalCommand).accL = s.accL := by cases s; rfl
@[simp] theorem State.takeIllegalCommand_flags (s : State) : (s.takeIllegalCommand).flags = s.flags := by cases s; rfl
@[simp] theorem State.takeIllegalCommand_dec (s : State) : (s.takeIllegalCommand).dec = s.dec := by cases s; rfl
@[simp] theorem State.takeIllegalCommand_dlen (s : State) : (s.takeIllegalCommand).dlen = s.dlen := by cases s; rfl
@[simp] theorem State.takeIllegalCommand_rsp (s : State) : (s.takeIllegalCommand).rsp = some (.faulted .illegalCommand) := by cases s; rfl
@[simp] theorem State.takeIllegalCommand_inputs (s : State) : (s.takeIllegalCommand).inputs = s.inputs := by cases s; rfl
@[simp] theorem State.idle_accH (s : State) : (s.idle).accH = s.accH := by cases s; rfl
@[simp] theorem State.idle_accL (s : State) : (s.idle).accL = s.accL := by cases s; rfl
@[simp] theorem State.idle_flags (s : State) : (s.idle).flags = s.flags := by cases s; rfl
@[simp] theorem State.idle_dec (s : State) : (s.idle).dec = s.dec := by cases s; rfl
@[simp] theorem State.idle_dlen (s : State) : (s.idle).dlen = s.dlen := by cases s; rfl
@[simp] theorem State.idle_rsp (s : State) : (s.idle).rsp = none := by cases s; rfl
@[simp] theorem State.idle_inputs (s : State) : (s.idle).inputs = s.inputs := by cases s; rfl
@[simp] theorem State.takeReset_accH (s : State) : (s.takeReset).accH = 0#1 := by cases s; rfl
@[simp] theorem State.takeReset_accL (s : State) : (s.takeReset).accL = 0#63 := by cases s; rfl
@[simp] theorem State.takeReset_flags (s : State) : (s.takeReset).flags = 0#6 := by cases s; rfl
@[simp] theorem State.takeReset_dec (s : State) : (s.takeReset).dec = 0#80 := by cases s; rfl
@[simp] theorem State.takeReset_dlen (s : State) : (s.takeReset).dlen = 0#5 := by cases s; rfl
@[simp] theorem State.takeReset_rsp (s : State) : (s.takeReset).rsp = none := by cases s; rfl
@[simp] theorem State.takeReset_inputs (s : State) : (s.takeReset).inputs = s.inputs := by cases s; rfl
@[simp] theorem State.abandonCommand_accH (s : State) : (s.abandonCommand).accH = 0#1 := by cases s; rfl
@[simp] theorem State.abandonCommand_accL (s : State) : (s.abandonCommand).accL = 0#63 := by cases s; rfl
@[simp] theorem State.abandonCommand_flags (s : State) : (s.abandonCommand).flags = 0#6 := by cases s; rfl
@[simp] theorem State.abandonCommand_dec (s : State) : (s.abandonCommand).dec = 0#80 := by cases s; rfl
@[simp] theorem State.abandonCommand_dlen (s : State) : (s.abandonCommand).dlen = 0#5 := by cases s; rfl
@[simp] theorem State.abandonCommand_rsp (s : State) : (s.abandonCommand).rsp = none := by cases s; rfl
@[simp] theorem State.abandonCommand_inputs (s : State) : (s.abandonCommand).inputs = s.inputs := by cases s; rfl
@[simp] theorem State.present_accH (s : State) (w : CommandWord) : (s.present w).accH = s.accH := by cases s; rfl
@[simp] theorem State.present_accL (s : State) (w : CommandWord) : (s.present w).accL = s.accL := by cases s; rfl
@[simp] theorem State.present_flags (s : State) (w : CommandWord) : (s.present w).flags = s.flags := by cases s; rfl
@[simp] theorem State.present_dec (s : State) (w : CommandWord) : (s.present w).dec = s.dec := by cases s; rfl
@[simp] theorem State.present_dlen (s : State) (w : CommandWord) : (s.present w).dlen = s.dlen := by cases s; rfl
@[simp] theorem State.present_rsp (s : State) (w : CommandWord) : (s.present w).rsp = s.rsp := by cases s; rfl
@[simp] theorem State.present_inputs (s : State) (w : CommandWord) : (s.present w).inputs = .command w :: s.inputs := by cases s; rfl

end Sys2Proof.Machine
end

