-- ==== Sys2Proof/Laws/Ops.lean ====
section
/-! SUPPORT. The views of a UInt64 agree, what each operation on the registers does, the order on pairs is the order of
magnitudes, and the fields of FLAGS. -/

namespace Sys2Proof

/-- The low part is below 2^63 and the high part is 0 or 1 (R21). -/
theorem Split.low_lt (p : Split) : p.low.toNat < 2 ^ 63 := p.low.isLt

theorem Split.high_le_one (p : Split) : p.high.toNat ≤ 1 := by
  have h := p.high.isLt
  omega

/-- A magnitude fits 64 bits (R9). -/
theorem Split.val_lt (p : Split) : p.val < 2 ^ 64 := by
  have h1 := p.low_lt
  have h2 := p.high_le_one
  unfold Split.val
  omega

/-- The bits of a pattern (R9). -/
theorem Split.pat_getLsbD (p : Split) (i : Nat) :
    p.pat.getLsbD i = if i < 63 then p.low.getLsbD i else p.high.getLsbD (i - 63) :=
  BitVec.getLsbD_append

/-- The pattern read as a number is the magnitude (R9). -/
theorem Split.pat_toNat (p : Split) : p.pat.toNat = p.val := by
  have h : p.pat.toNat = p.high.toNat <<< 63 ||| p.low.toNat := BitVec.toNat_append _ _
  rw [h, Nat.shiftLeft_eq, Nat.mul_comm, ← Nat.two_pow_add_eq_or_of_lt p.low_lt, Split.val]
  omega

/-- `split` is the inverse of `pat`. -/
@[simp] theorem Split.pat_ofWord (v : Word) : (Split.ofWord v).pat = v := by
  apply BitVec.eq_of_getLsbD_eq
  intro i hi
  rw [Split.pat_getLsbD]
  split
  · simp [Split.ofWord, *]
  · have h : i = 63 := by omega
    simp [Split.ofWord, h]

/-- `pat` is the inverse of `split`. -/
@[simp] theorem Split.ofWord_pat (p : Split) : Split.ofWord p.pat = p := by
  have hl : (Split.ofWord p.pat).low = p.low := by
    apply BitVec.eq_of_getLsbD_eq
    intro i hi
    simp [Split.ofWord, Split.pat_getLsbD, hi]
  have hh : (Split.ofWord p.pat).high = p.high := by
    apply BitVec.eq_of_getLsbD_eq
    intro i hi
    have h : i = 0 := by omega
    have k : (Split.ofWord p.pat).high.getLsbD 0 = p.pat.getLsbD 63 := by simp [Split.ofWord]
    rw [h, k, Split.pat_getLsbD]
    rfl
  exact congr (congrArg Split.mk hh) hl

/-- The magnitude of `split(v)` is `v` as a number. -/
@[simp] theorem Split.val_ofWord (v : Word) : (Split.ofWord v).val = v.toNat := by
  rw [← Split.pat_toNat, Split.pat_ofWord]

/-- A pair is its magnitude. -/
theorem Split.val_inj {p q : Split} (h : p.val = q.val) : p = q := by
  have hp : p.pat = q.pat := BitVec.eq_of_toNat_eq (by rw [Split.pat_toNat, Split.pat_toNat, h])
  rw [← Split.ofWord_pat p, hp, Split.ofWord_pat]

theorem Split.high_cases (p : Split) : p.high = 0#1 ∨ p.high = 1#1 := by
  have h := p.high.isLt
  rcases (by omega : p.high.toNat = 0 ∨ p.high.toNat = 1) with h | h
  · exact .inl (BitVec.eq_of_toNat_eq h)
  · exact .inr (BitVec.eq_of_toNat_eq h)

/-- The order of R135 is the order of the magnitudes. -/
theorem Split.lt_iff_val (a b : Split) : a.lt b = true ↔ a.val < b.val := by
  have ha := a.low_lt
  have hb := b.low_lt
  rcases a.high_cases with h | h <;> rcases b.high_cases with k | k <;>
    simp [Split.lt, Split.val, h, k] <;> omega

theorem Split.gt_iff_val (a b : Split) : a.gt b = true ↔ b.val < a.val := by
  have ha := a.low_lt
  have hb := b.low_lt
  rcases a.high_cases with h | h <;> rcases b.high_cases with k | k <;>
    simp [Split.gt, Split.val, h, k] <;> omega

theorem Split.eq_iff_val (a b : Split) : a.eq b = true ↔ a.val = b.val := by
  constructor
  · intro h
    simp only [Split.eq, Bool.and_eq_true, beq_iff_eq] at h
    simp [Split.val, h.1, h.2]
  · intro h
    rw [Split.val_inj h]
    simp [Split.eq]

namespace Machine

/-- Writing a pair to ACC and reading it. -/
@[simp] theorem State.acc_writeAccPair (s : State) (p : Split) : (s.writeAccPair p).acc = p := by
  cases s; rfl

@[simp] theorem State.acc_writeAcc (s : State) (v : Word) : (s.writeAcc v).acc = Split.ofWord v := by
  cases s; rfl

@[simp] theorem State.acc_complete (s : State) (f : BitVec 6) : (s.complete f).acc = s.acc := by
  cases s; rfl

@[simp] theorem State.acc_raise (s : State) (c : Cause) : (s.raise c).acc = s.acc := by
  cases s; rfl

@[simp] theorem State.acc_writeDecimal (s : State) (d : BitVec 80) (n : BitVec 5) :
    (s.writeDecimal d n).acc = s.acc := by
  cases s; rfl

@[simp] theorem State.acc_present (s : State) (w : CommandWord) : (s.present w).acc = s.acc := by
  cases s; rfl

theorem State.accVal_lt (s : State) : s.accVal < 2 ^ 64 := s.acc.val_lt

theorem State.accPat_toNat (s : State) : s.accPat.toNat = s.accVal := s.acc.pat_toNat

/-- A completed command in one lemma: the flags are `f`, the response is `ok`, nothing else changes. -/
theorem State.complete_spec (s : State) (f : BitVec 6) :
    (s.complete f).flags = f ∧ (s.complete f).rsp = some .completed ∧ (s.complete f).acc = s.acc ∧
      (s.complete f).dec = s.dec ∧ (s.complete f).dlen = s.dlen ∧ (s.complete f).inputs = s.inputs :=
  ⟨rfl, rfl, by simp, by simp, by simp, by simp⟩

/-- A fault in one lemma: the response tells the cause, nothing else changes (R156). -/
theorem State.raise_spec (s : State) (c : Cause) :
    (s.raise c).rsp = some (.faulted c) ∧ (s.raise c).acc = s.acc ∧ (s.raise c).flags = s.flags ∧
      (s.raise c).dec = s.dec ∧ (s.raise c).dlen = s.dlen ∧ (s.raise c).inputs = s.inputs :=
  ⟨rfl, by simp, by simp, by simp, by simp, by simp⟩

/-- The next event of a state that is presented a word. -/
@[simp] theorem State.nextEvent_present (s : State) (w : CommandWord) :
    (s.present w).nextEvent = some (.command w, s) := rfl

/-- The bit positions of R23: every bit of FLAGS from its six fields. -/
theorem flagsWord_getLsbD (c b v eq lt gt : Bool) (i : Nat) :
    (flagsWord c b v eq lt gt).getLsbD i =
      ((decide (i = 0) && c) || (decide (i = 1) && b) || (decide (i = 2) && v) || (decide (i = 3) && eq) ||
        (decide (i = 4) && lt) || (decide (i = 5) && gt)) := by
  by_cases h : i < 6
  · have all : ∀ j, j < 6 → ∀ c b v eq lt gt : Bool, (flagsWord c b v eq lt gt).getLsbD j =
        (decide (j = 0) && c || decide (j = 1) && b || decide (j = 2) && v || decide (j = 3) && eq ||
          decide (j = 4) && lt || decide (j = 5) && gt) := by decide
    exact all i h c b v eq lt gt
  · rw [BitVec.getLsbD_of_ge _ _ (by omega)]
    simp (disch := omega) [show ∀ n, n < 6 → i ≠ n by omega]

/-- The six fields of FLAGS, read back. -/
@[simp] theorem flagC_flagsWord (c b v eq lt gt : Bool) : flagC (flagsWord c b v eq lt gt) = c := by
  simp only [flagC, flagsWord_getLsbD]; simp

@[simp] theorem flagB_flagsWord (c b v eq lt gt : Bool) : flagB (flagsWord c b v eq lt gt) = b := by
  simp only [flagB, flagsWord_getLsbD]; simp

@[simp] theorem flagV_flagsWord (c b v eq lt gt : Bool) : flagV (flagsWord c b v eq lt gt) = v := by
  simp only [flagV, flagsWord_getLsbD]; simp

@[simp] theorem flagEQ_flagsWord (c b v eq lt gt : Bool) : flagEQ (flagsWord c b v eq lt gt) = eq := by
  simp only [flagEQ, flagsWord_getLsbD]; simp

@[simp] theorem flagLT_flagsWord (c b v eq lt gt : Bool) : flagLT (flagsWord c b v eq lt gt) = lt := by
  simp only [flagLT, flagsWord_getLsbD]; simp

@[simp] theorem flagGT_flagsWord (c b v eq lt gt : Bool) : flagGT (flagsWord c b v eq lt gt) = gt := by
  simp only [flagGT, flagsWord_getLsbD]; simp

@[simp] theorem noFlags_eq : noFlags = 0#6 := by decide

end Machine

end Sys2Proof
end

