-- ==== Sys2Proof/Laws/Operands.lean ====
section
/-! SUPPORT. The three ranges of the shift amount. -/

namespace Sys2Proof.Machine

open Sys2Proof

theorem operandPair_val (b : Word) : (operandPair b).val = operandVal b := Split.val_ofWord b

/-- The high bit of an operand is 1 exactly when its value is 2^63 or more. -/
theorem operandPair_high_iff (n : Word) : (operandPair n).high = 1#1 ↔ 2 ^ 63 ≤ n.toNat := by
  have h := operandPair_val n
  have hl := (operandPair n).low_lt
  simp only [Split.val, operandVal] at h
  rcases (operandPair n).high_cases with k | k <;> simp [k] at h ⊢ <;> omega

/-- Below 2^63 the low part is the value. -/
theorem operandPair_low_of_lt (n : Word) (hn : n.toNat < 2 ^ 63) : (operandPair n).low.toNat = n.toNat := by
  have h := operandPair_val n
  simp only [Split.val, operandVal] at h
  rcases (operandPair n).high_cases with k | k <;> simp [k] at h <;> omega

/-- The classification of R114 on the value of the amount, in one lemma. -/
theorem shiftAmount_spec (p : ShiftOverwidth) (n : Word) :
    (2 ^ 63 ≤ n.toNat → shiftAmount p n = none) ∧
    (64 ≤ n.toNat → n.toNat < 2 ^ 63 → shiftAmount p n = if p = .zero then none else some (n.toNat % 64)) ∧
    (n.toNat < 64 → shiftAmount p n = some n.toNat) := by
  refine ⟨fun h => ?_, fun h1 h2 => ?_, fun h => ?_⟩
  · simp [shiftAmount, (operandPair_high_iff n).2 h]
  · have hh : ¬ (operandPair n).high = 1#1 := fun k => by
      have := (operandPair_high_iff n).1 k
      omega
    cases p <;> simp [shiftAmount, hh, operandPair_low_of_lt n h2, h1]
  · have hh : ¬ (operandPair n).high = 1#1 := fun k => by
      have := (operandPair_high_iff n).1 k
      omega
    have hl := operandPair_low_of_lt n (by omega)
    have hm : ¬ 64 ≤ n.toNat := by omega
    simp [shiftAmount, hh, hl, hm]

/-- An effective amount is at most 63. -/
theorem shiftAmount_le (p : ShiftOverwidth) (n : Word) (e : Nat) (h : shiftAmount p n = some e) : e ≤ 63 := by
  obtain ⟨h1, h2, h3⟩ := shiftAmount_spec p n
  by_cases a : 2 ^ 63 ≤ n.toNat
  · rw [h1 a] at h
    cases h
  · by_cases b : 64 ≤ n.toNat
    · rw [h2 b (by omega)] at h
      cases p <;> simp at h
      omega
    · rw [h3 (by omega)] at h
      cases h
      omega

end Sys2Proof.Machine
end

