-- ==== Sys2Proof/Laws/PerInstr.lean ====
section
/-! SUPPORT. Per command: the encoded word selects the command's row of the opcode table, as R56 says it with `match` and
`mask` (spec/30_encoding.md). -/

namespace Sys2Proof

/-- The encoded word selects the row of its command: `w & mask = match` (R56). -/
def Laws.Selects.Statement (i : Instr) : Prop := encode i &&& rowMask = rowMatch i

/-- The mask keeps the opcode and clears the operand. -/
theorem Laws.Selects.mask_append (o : BitVec 8) (d : Word) :
    (o ++ d : CommandWord) &&& rowMask = o ++ 0#64 := by
  apply BitVec.eq_of_getLsbD_eq
  intro i hi
  have h : rowMask.getLsbD i = decide (64 ≤ i) := by
    have k : ∀ j : Fin 72, rowMask.getLsbD j.val = decide (64 ≤ j.val) := by decide
    exact k ⟨i, hi⟩
  rw [BitVec.getLsbD_and, commandWord_getLsbD, commandWord_getLsbD, h]
  split
  · simp_all
  · simp_all

/-- The rows of R56 at once: the masked word is the opcode above a zero operand. -/
theorem Laws.Selects.of_opcode (i : Instr) (h : rowMatch i = opcodeOf i ++ 0#64) :
    Laws.Selects.Statement i :=
  (Laws.Selects.mask_append (opcodeOf i) (operandField i)).trans h.symm

theorem Laws.Selects.load (b : Word) : Laws.Selects.Statement (.load b) :=
  Laws.Selects.of_opcode _ (by simp only [rowMatch, opcodeOf]; decide)

theorem Laws.Selects.add (b : Word) : Laws.Selects.Statement (.add b) :=
  Laws.Selects.of_opcode _ (by simp only [rowMatch, opcodeOf]; decide)

theorem Laws.Selects.sub (b : Word) : Laws.Selects.Statement (.sub b) :=
  Laws.Selects.of_opcode _ (by simp only [rowMatch, opcodeOf]; decide)

theorem Laws.Selects.mul (b : Word) : Laws.Selects.Statement (.mul b) :=
  Laws.Selects.of_opcode _ (by simp only [rowMatch, opcodeOf]; decide)

theorem Laws.Selects.div (b : Word) : Laws.Selects.Statement (.div b) :=
  Laws.Selects.of_opcode _ (by simp only [rowMatch, opcodeOf]; decide)

theorem Laws.Selects.mod (b : Word) : Laws.Selects.Statement (.mod b) :=
  Laws.Selects.of_opcode _ (by simp only [rowMatch, opcodeOf]; decide)

theorem Laws.Selects.inc : Laws.Selects.Statement .inc := Laws.Selects.of_opcode _ rfl

theorem Laws.Selects.dec : Laws.Selects.Statement .dec := Laws.Selects.of_opcode _ rfl

theorem Laws.Selects.asl (b : Word) : Laws.Selects.Statement (.asl b) :=
  Laws.Selects.of_opcode _ (by simp only [rowMatch, opcodeOf]; decide)

theorem Laws.Selects.asr (b : Word) : Laws.Selects.Statement (.asr b) :=
  Laws.Selects.of_opcode _ (by simp only [rowMatch, opcodeOf]; decide)

theorem Laws.Selects.lsl (b : Word) : Laws.Selects.Statement (.lsl b) :=
  Laws.Selects.of_opcode _ (by simp only [rowMatch, opcodeOf]; decide)

theorem Laws.Selects.lsr (b : Word) : Laws.Selects.Statement (.lsr b) :=
  Laws.Selects.of_opcode _ (by simp only [rowMatch, opcodeOf]; decide)

theorem Laws.Selects.and (b : Word) : Laws.Selects.Statement (.and b) :=
  Laws.Selects.of_opcode _ (by simp only [rowMatch, opcodeOf]; decide)

theorem Laws.Selects.or (b : Word) : Laws.Selects.Statement (.or b) :=
  Laws.Selects.of_opcode _ (by simp only [rowMatch, opcodeOf]; decide)

theorem Laws.Selects.xor (b : Word) : Laws.Selects.Statement (.xor b) :=
  Laws.Selects.of_opcode _ (by simp only [rowMatch, opcodeOf]; decide)

theorem Laws.Selects.not : Laws.Selects.Statement .not := Laws.Selects.of_opcode _ rfl

theorem Laws.Selects.cmp (b : Word) : Laws.Selects.Statement (.cmp b) :=
  Laws.Selects.of_opcode _ (by simp only [rowMatch, opcodeOf]; decide)

theorem Laws.Selects.todec : Laws.Selects.Statement .todec := Laws.Selects.of_opcode _ rfl

end Sys2Proof
end

