-- ==== Sys2Proof/Laws/Results.lean ====
section
/-! SUPPORT. What the shared result operations give: the shifter on the magnitude, the digits and the length of a
numeral. -/

namespace Sys2Proof.Machine

open Sys2Proof

/-- A left shift of the pattern is a multiplication modulo 2^64 (R117). -/
theorem shiftLeft_toNat (amount : Option Nat) (p : Word) :
    (shiftLeft amount p).toNat = match amount with
      | none => 0
      | some e => p.toNat * 2 ^ e % 2 ^ 64 := by
  cases amount with
  | none => rfl
  | some e => simp [shiftLeft, Nat.shiftLeft_eq]

/-- A right shift of the pattern is a division (R119, R120). -/
theorem shiftRight_toNat (amount : Option Nat) (p : Word) :
    (shiftRight amount p).toNat = match amount with
      | none => 0
      | some e => p.toNat / 2 ^ e := by
  cases amount with
  | none => rfl
  | some e =>
    have h : p.toNat / 2 ^ e < 18446744073709551616 := lt_of_le_of_lt (Nat.div_le_self _ _) p.isLt
    simp [shiftRight, Nat.shiftRight_eq_div_pow, Nat.mod_eq_of_lt h]

/-- Packed digits below 16 stay below 16 to their number. -/
theorem packDigits_lt (ds : List Nat) (h : ∀ d ∈ ds, d < 16) : packDigits ds < 16 ^ ds.length := by
  induction ds with
  | nil => simp [packDigits]
  | cons d ds ih =>
    have h1 := ih fun d hd => h d (by simp [hd])
    have h2 := h d (by simp)
    simp only [packDigits, List.length_cons, Nat.pow_succ]
    omega

/-- A packed digit is read back from its four bits (R26). -/
theorem packDigits_digit (ds : List Nat) (h : ∀ d ∈ ds, d < 16) (i : Nat) (hi : i < ds.length) :
    packDigits ds / 16 ^ i % 16 = ds[i] := by
  induction ds generalizing i with
  | nil => simp at hi
  | cons d ds ih =>
    have hd := h d (by simp)
    cases i with
    | zero =>
      simp [packDigits]
      omega
    | succ i =>
      have k := ih (fun d hd => h d (by simp [hd])) i (by simpa using hi)
      have q : (d + 16 * packDigits ds) / 16 = packDigits ds := by omega
      simp only [packDigits, List.getElem_cons_succ]
      rw [← k, Nat.pow_succ', ← Nat.div_div_eq_div_mul, q]

/-- Every digit of a numeral is at most 9. -/
theorem decimalDigits_le (a : Nat) : ∀ d ∈ decimalDigits a, d ≤ 9 := by
  intro d hd
  simp only [decimalDigits, List.mem_map, List.mem_range] at hd
  obtain ⟨k, _, rfl⟩ := hd
  omega

/-- The digits that DEC holds after it was written with the numeral of `a` (R141). -/
theorem decDigit_decimalWord (a i : Nat) (hi : i < 20) :
    (decDigit (decimalWord (decimalDigits a)) i).toNat = a / 10 ^ i % 10 := by
  have h16 : ∀ d ∈ decimalDigits a, d < 16 := fun d hd => by
    have := decimalDigits_le a d hd
    omega
  have hlen : (decimalDigits a).length = 20 := by simp [decimalDigits]
  have hlt : packDigits (decimalDigits a) < 2 ^ 80 := by
    have h := packDigits_lt _ h16
    rw [hlen] at h
    exact lt_of_lt_of_eq h (by norm_num)
  have hp : (2 : Nat) ^ (4 * i) = 16 ^ i := by rw [Nat.pow_mul]
  have hd := packDigits_digit _ h16 i (by omega)
  simp only [decDigit, decimalWord, BitVec.extractLsb'_toNat, BitVec.toNat_ofNat, Nat.shiftRight_eq_div_pow,
    Nat.mod_eq_of_lt hlt]
  rw [hp]
  simpa [decimalDigits] using hd

/-- The length of a numeral below 10^20 is the least number of digits that holds it, or 1 (R141). -/
theorem decimalLength_spec (a : Nat) (ha : a < 10 ^ 20) :
    1 ≤ decimalLength a ∧ decimalLength a ≤ 20 ∧ a < 10 ^ decimalLength a ∧
      ∀ n, 1 ≤ n → a < 10 ^ n → decimalLength a ≤ n := by
  by_cases h0 : a = 0
  · subst h0
    exact ⟨by decide, by decide, by decide, fun n hn _ => hn⟩
  · cases hf : (List.range 21).find? (fun n => decide (a < 10 ^ n)) with
    | none =>
      rw [List.find?_eq_none] at hf
      exact absurd ha (by simpa using hf 20 (by simp))
    | some m =>
      have hl : decimalLength a = m := by simp only [decimalLength, if_neg h0, hf, Option.getD_some]
      rw [List.find?_range_eq_some] at hf
      obtain ⟨hm, hr, hmin⟩ := hf
      simp only [decide_eq_true_eq] at hm
      simp only [List.mem_range] at hr
      have h1 : 1 ≤ m := by
        by_contra hc
        have : m = 0 := by omega
        subst this
        simp at hm
        exact h0 hm
      rw [hl]
      refine ⟨h1, by omega, hm, fun n _ hn => ?_⟩
      by_contra hc
      have := hmin n (by omega)
      simp at this
      omega

end Sys2Proof.Machine
end

