-- ==== Sys2Proof/Laws/Step.lean ====
section
/-! SUPPORT. What a step can do, once. -/

namespace Sys2Proof.Machine

open Sys2Proof

/-- The value of ACC after a write of a pattern is the pattern as a number. -/
@[simp] theorem accVal_writeAcc_complete (s : State) (v : Word) (f : BitVec 6) :
    ((s.writeAcc v).complete f).accVal = v.toNat := by
  simp [State.accVal]

@[simp] theorem accPat_writeAcc_complete (s : State) (v : Word) (f : BitVec 6) :
    ((s.writeAcc v).complete f).accPat = v := by
  simp [State.accPat]

/-- A completion that writes ACC is one that writes DEC and DLEN with what they hold. -/
theorem complete_writeAccPair (s : State) (p : Split) (f : BitVec 6) :
    (s.writeAccPair p).complete f = ((s.writeAccPair p).writeDecimal s.dec s.dlen).complete f := rfl

/-- A completion that writes nothing but FLAGS. -/
theorem complete_only (s : State) (f : BitVec 6) :
    s.complete f = ((s.writeAccPair s.acc).writeDecimal s.dec s.dlen).complete f := rfl

/-- A completion that writes DEC and DLEN. -/
theorem complete_writeDecimal (s : State) (d : BitVec 80) (n : BitVec 5) (f : BitVec 6) :
    (s.writeDecimal d n).complete f = ((s.writeAccPair s.acc).writeDecimal d n).complete f := rfl

/-- What a command can answer, once: it completes, with FLAGS, ACC, DEC and DLEN written and nothing else, or it raises
DivisionByZero. -/
theorem exec_shape (i : Instr) (s : State) :
    (∃ p d n f, exec i s = .next (((s.writeAccPair p).writeDecimal d n).complete f)) ∨
      exec i s = .next (s.raise .divisionByZero) := by
  cases i with
  | cmp b => exact .inl ⟨_, _, _, _, congrArg Host.Outcome.next (complete_only s (compareFlags s.acc (operandPair b)))⟩
  | todec => exact .inl ⟨_, _, _, _, congrArg Host.Outcome.next (complete_writeDecimal s _ _ _)⟩
  | div b =>
    by_cases h : operandVal b = 0
    · exact .inr (by simp only [exec, execDiv, if_pos h])
    · exact .inl ⟨_, _, _, _,
        (if_neg h : execDiv b s = _).trans (congrArg Host.Outcome.next (complete_writeAccPair s _ _))⟩
  | mod b =>
    by_cases h : operandVal b = 0
    · exact .inr (by simp only [exec, execMod, if_pos h])
    · exact .inl ⟨_, _, _, _,
        (if_neg h : execMod b s = _).trans (congrArg Host.Outcome.next (complete_writeAccPair s _ _))⟩
  | _ => exact .inl ⟨_, _, _, _, congrArg Host.Outcome.next (complete_writeAccPair s _ _)⟩

/-- The step on a presented word, by what it decodes to. -/
theorem step_present (s : State) (w : CommandWord) :
    step (s.present w) = match decode w with
      | .ok i => exec i s
      | .error _ => .next s.takeIllegalCommand := rfl

/-- Inversion of the step: the core was idle, or ran a decoded command, or took an illegal word, or a reset. -/
theorem step_cases {s t : State} (h : step s = .next t) :
    (s.nextEvent = none ∧ t = s.idle) ∨
    (∃ w u i, s.nextEvent = some (.command w, u) ∧ decode w = .ok i ∧ exec i u = .next t) ∨
    (∃ w u e, s.nextEvent = some (.command w, u) ∧ decode w = .error e ∧ t = u.takeIllegalCommand) ∨
    (∃ u, s.nextEvent = some (.reset, u) ∧ t = u.takeReset) ∨
    (∃ w u, s.nextEvent = some (.abandoned w, u) ∧ t = u.abandonCommand) := by
  unfold step at h
  split at h
  · exact .inl ⟨‹_›, by cases h; rfl⟩
  · split at h
    · exact .inr (.inl ⟨_, _, _, ‹_›, ‹_›, h⟩)
    · exact .inr (.inr (.inl ⟨_, _, _, ‹_›, ‹_›, by cases h; rfl⟩))
  · exact .inr (.inr (.inr (.inl ⟨_, ‹_›, by cases h; rfl⟩)))
  · exact .inr (.inr (.inr (.inr ⟨_, _, ‹_›, by cases h; rfl⟩)))

/-- The state that has accepted an event differs from the one before in the host's stream alone. -/
theorem nextEvent_spec {s u : State} {e : HostEvent} (h : s.nextEvent = some (e, u)) :
    s.inputs = e :: u.inputs ∧ u.accH = s.accH ∧ u.accL = s.accL ∧ u.flags = s.flags ∧ u.dec = s.dec ∧
      u.dlen = s.dlen ∧ u.rsp = s.rsp := by
  unfold State.nextEvent at h
  split at h
  · cases h
  · rename_i hs
    cases h
    exact ⟨hs, rfl, rfl, rfl, rfl, rfl, rfl⟩

/-- No command reads the host's stream or changes it: with another stream it answers the same, but for the stream. -/
theorem exec_withInputs (i : Instr) (s : State) (es : List HostEvent) :
    ∃ t, exec i s = .next t ∧ exec i { s with inputs := es } = .next { t with inputs := es } ∧ t.inputs = s.inputs := by
  cases s with
  | mk h l f d n r ins =>
    cases i with
    | div b =>
      by_cases z : operandVal b = 0
      · exact ⟨_, if_pos z, if_pos z, State.raise_inputs _ _⟩
      · exact ⟨_, if_neg z, if_neg z, (State.complete_inputs _ _).trans (State.writeAcc_inputs _ _)⟩
    | mod b =>
      by_cases z : operandVal b = 0
      · exact ⟨_, if_pos z, if_pos z, State.raise_inputs _ _⟩
      · exact ⟨_, if_neg z, if_neg z, (State.complete_inputs _ _).trans (State.writeAcc_inputs _ _)⟩
    | cmp b => exact ⟨_, rfl, rfl, State.complete_inputs _ _⟩
    | todec => exact ⟨_, rfl, rfl, (State.complete_inputs _ _).trans (State.writeDecimal_inputs _ _ _)⟩
    | _ => exact ⟨_, rfl, rfl, (State.complete_inputs _ _).trans (State.writeAccPair_inputs _ _)⟩

/-- A step that takes a command word: what follows the word in the host's stream does not enter into it. -/
theorem step_command (s : State) (w : CommandWord) (es : List HostEvent) :
    ∃ t, step (s.present w) = .next t ∧ t.inputs = s.inputs ∧
      step { s with inputs := .command w :: es } = .next { t with inputs := es } := by
  have h : step { s with inputs := .command w :: es } =
      match decode w with
      | .ok i => exec i { s with inputs := es }
      | .error _ => .next ({ s with inputs := es } : State).takeIllegalCommand := rfl
  rw [step_present, h]
  cases decode w with
  | ok i =>
    obtain ⟨t, h1, h2, h3⟩ := exec_withInputs i s es
    exact ⟨t, h1, h3, h2⟩
  | error e => exact ⟨_, rfl, rfl, rfl⟩

end Sys2Proof.Machine
end

