-- ==== Sys2Proof/Tests/Slice0.lean ====
section
/-! SUPPORT. Tests. Words and results are those of spec/95_test_vectors.md (V<n>) or worked out by hand from the rule
named; the witnesses show that the hypotheses of the statements can be met. -/

namespace Sys2Proof.Tests

open Sys2Proof Sys2Proof.Machine

/-! ### Decoding: words written out from R50 and R56 -/

theorem test_decode_load : decode 0x018000000000000001#72 = .ok (.load 0x8000000000000001#64) := by decide

theorem test_decode_add : decode 0x10891087B8E3B70CB1#72 = .ok (.add 9876543210987654321#64) := by decide

theorem test_decode_sub : decode 0x118000000000000003#72 = .ok (.sub 0x8000000000000003#64) := by decide

theorem test_decode_mul : decode 0x12000000000000000A#72 = .ok (.mul 10#64) := by decide

theorem test_decode_div : decode 0x13000000003B9ACA07#72 = .ok (.div 1000000007#64) := by decide

theorem test_decode_mod : decode 0x14FFFFFFFFFFFFFFFE#72 = .ok (.mod 0xFFFFFFFFFFFFFFFE#64) := by decide

theorem test_decode_inc : decode 0x1500000000DEADBEEF#72 = .ok .inc := by decide

theorem test_decode_dec : decode 0x160000000000000000#72 = .ok .dec := by decide

theorem test_decode_asl : decode 0x20000000000000003F#72 = .ok (.asl 63#64) := by decide

theorem test_decode_asr : decode 0x210000000000000004#72 = .ok (.asr 4#64) := by decide

theorem test_decode_lsl : decode 0x228000000000000000#72 = .ok (.lsl 0x8000000000000000#64) := by decide

theorem test_decode_lsr : decode 0x237FFFFFFFFFFFFFFF#72 = .ok (.lsr 0x7FFFFFFFFFFFFFFF#64) := by decide

theorem test_decode_and : decode 0x30FF00FF00FF00FF00#72 = .ok (.and 0xFF00FF00FF00FF00#64) := by decide

theorem test_decode_or : decode 0x310F0F0F0F0F0F0F0F#72 = .ok (.or 0x0F0F0F0F0F0F0F0F#64) := by decide

theorem test_decode_xor : decode 0x32123456789ABCDEF0#72 = .ok (.xor 0x123456789ABCDEF0#64) := by decide

theorem test_decode_not : decode 0x330000000000000055#72 = .ok .not := by decide

theorem test_decode_cmp : decode 0x401999999999999999#72 = .ok (.cmp 1844674407370955161#64) := by decide

theorem test_decode_todec : decode 0x500000000000000000#72 = .ok .todec := by decide

theorem test_decode_illegal_zero_word : decode 0x000000000000000000#72 = .error (.illegalCommand 0x00#8) := by decide

theorem test_decode_illegal_neighbour : decode 0x170000000000000003#72 = .error (.illegalCommand 0x17#8) := by decide

theorem test_table_word : decodeTableWord 72 0x100000000000000001 = some (.add 1#64) := by decide

/-- Eight table bits reach no opcode: the bits above are 0, and the all-zero opcode is illegal. -/
theorem test_table_word_short : decodeTableWord 8 0x10 = none := by decide

/-! ### Checks of assembler lines (R60): an ill-formed line for each check -/

theorem test_asm_missing_literal : AsmLine.check ⟨.add, none⟩ = .error .missingLiteral := by decide

theorem test_asm_unexpected_literal : AsmLine.check ⟨.inc, some 1⟩ = .error .unexpectedLiteral := by decide

theorem test_asm_minus_sign : AsmLine.check ⟨.add, some (-1)⟩ = .error .negativeLiteral := by decide

theorem test_asm_out_of_range : AsmLine.check ⟨.add, some 18446744073709551616⟩ = .error .literalOutOfRange := by
  decide

theorem test_asm_text : assembleText "LSL 0x3_F ; shift".toList = .ok (some 0x22000000000000003F#72) := by decide

theorem test_asm_text_unknown : assembleText "add 1".toList = .error .unknownMnemonic := by decide

theorem test_asm_text_negative_zero : assembleText "ADD -0".toList = .error .negativeLiteral := by decide

theorem test_asm_text_comment : assembleText "  ; nothing".toList = .ok none := by decide

/-- Every command is well-formed (R52, R58). -/
theorem test_wellFormed : ∀ b : Word, (Instr.add b).wellFormed = true ∧ Instr.inc.wellFormed = true :=
  fun _ => ⟨rfl, rfl⟩

/-! ### One command on a small state -/

/-- The reset state with a value in ACC. -/
def startAt (a : Word) : State := State.reset.writeAcc a

/-- ACC, FLAGS and the response after one command word. -/
def outcome (s : State) (w : CommandWord) : Option (Word × BitVec 6 × Option Response) :=
  match step (s.present w) with
  | .next t => some (accO t, flagsO t, t.rsp)
  | .refused _ => none

/-- DEC and DLEN after one command word. -/
def decimalAfter (s : State) (w : CommandWord) : Option (BitVec 80 × BitVec 5) :=
  match step (s.present w) with
  | .next t => some (decO t, dlenO t)
  | .refused _ => none

theorem test_load_V3 : outcome (startAt 0x0#64) 0x018000000000000001#72 =
    some (0x8000000000000001#64, 0x00#6, some .completed) := by decide

theorem test_add_V8 : outcome (startAt 0x7FFFFFFFFFFFFFFF#64) 0x100000000000000001#72 =
    some (0x8000000000000000#64, 0x00#6, some .completed) := by decide

theorem test_add_V18 : outcome (startAt 0xAB54A98CEB1F0AD2#64) 0x10891087B8E3B70CB1#72 =
    some (0x34653145CED61783#64, 0x01#6, some .completed) := by decide

theorem test_sub_V24 : outcome (startAt 0x8000000000000000#64) 0x110000000000000001#72 =
    some (0x7FFFFFFFFFFFFFFF#64, 0x00#6, some .completed) := by decide

theorem test_sub_V26 : outcome (startAt 0x0000000000000005#64) 0x118000000000000003#72 =
    some (0x8000000000000002#64, 0x02#6, some .completed) := by decide

theorem test_inc_V34 : outcome (startAt 0xFFFFFFFFFFFFFFFF#64) 0x150000000000000000#72 =
    some (0x0000000000000000#64, 0x01#6, some .completed) := by decide

theorem test_inc_V40 : outcome (startAt 0x0000000000000042#64) 0x1500000000DEADBEEF#72 =
    some (0x0000000000000043#64, 0x00#6, some .completed) := by decide

theorem test_dec_V37 : outcome (startAt 0x0000000000000000#64) 0x160000000000000000#72 =
    some (0xFFFFFFFFFFFFFFFF#64, 0x02#6, some .completed) := by decide

theorem test_dec_V38 : outcome (startAt 0x8000000000000000#64) 0x160000000000000000#72 =
    some (0x7FFFFFFFFFFFFFFF#64, 0x00#6, some .completed) := by decide

theorem test_mul_V47 : outcome (startAt 0x00000000FFFFFFFF#64) 0x1200000000FFFFFFFF#72 =
    some (0xFFFFFFFE00000001#64, 0x00#6, some .completed) := by decide

theorem test_mul_V53 : outcome (startAt 0x5555555555555556#64) 0x120000000000000003#72 =
    some (0x0000000000000002#64, 0x04#6, some .completed) := by decide

theorem test_div_V73 : outcome (startAt 0xFFFFFFFFFFFFFFFF#64) 0x13000000000000000A#72 =
    some (0x1999999999999999#64, 0x00#6, some .completed) := by decide

theorem test_div_V61 : outcome (startAt 0x0000000000000000#64) 0x130000000000000000#72 =
    some (0x0000000000000000#64, 0x00#6, some (.faulted .divisionByZero)) := by decide

theorem test_mod_V74 : outcome (startAt 0xFFFFFFFFFFFFFFFF#64) 0x14000000000000000A#72 =
    some (0x0000000000000005#64, 0x00#6, some .completed) := by decide

theorem test_mod_V62 : outcome (startAt 0xFFFFFFFFFFFFFFFF#64) 0x140000000000000000#72 =
    some (0xFFFFFFFFFFFFFFFF#64, 0x00#6, some (.faulted .divisionByZero)) := by decide

theorem test_asl_V91 : outcome (startAt 0x4000000000000001#64) 0x200000000000000001#72 =
    some (0x8000000000000002#64, 0x00#6, some .completed) := by decide

theorem test_asl_V110 : outcome (startAt 0xFFFFFFFFFFFFFFFF#64) 0x208000000000000001#72 =
    some (0x0000000000000000#64, 0x00#6, some .completed) := by decide

theorem test_asr_V100 : outcome (startAt 0x8000000000000000#64) 0x210000000000000001#72 =
    some (0x4000000000000000#64, 0x00#6, some .completed) := by decide

theorem test_asr_V108 : outcome (startAt 0xFFFFFFFFFFFFFFFF#64) 0x218000000000000000#72 =
    some (0x0000000000000000#64, 0x00#6, some .completed) := by decide

theorem test_lsl_V95 : outcome (startAt 0x0000000000000003#64) 0x22000000000000003F#72 =
    some (0x8000000000000000#64, 0x00#6, some .completed) := by decide

theorem test_lsl_V98 : outcome (startAt 0x123456789ABCDEF0#64) 0x220000000000000000#72 =
    some (0x123456789ABCDEF0#64, 0x00#6, some .completed) := by decide

theorem test_lsr_V99 : outcome (startAt 0x8000000000000000#64) 0x230000000000000001#72 =
    some (0x4000000000000000#64, 0x00#6, some .completed) := by decide

theorem test_lsr_V105 : outcome (startAt 0x7FFFFFFFFFFFFFFF#64) 0x23000000000000003F#72 =
    some (0x0000000000000000#64, 0x00#6, some .completed) := by decide

theorem test_and_V123 : outcome (startAt 0xF0F0F0F0F0F0F0F0#64) 0x30FF00FF00FF00FF00#72 =
    some (0xF000F000F000F000#64, 0x00#6, some .completed) := by decide

theorem test_or_V127 : outcome (startAt 0x0000000000000001#64) 0x318000000000000000#72 =
    some (0x8000000000000001#64, 0x00#6, some .completed) := by decide

theorem test_xor_V130 : outcome (startAt 0x8000000000000001#64) 0x328000000000000003#72 =
    some (0x0000000000000002#64, 0x00#6, some .completed) := by decide

theorem test_not_V134 : outcome (startAt 0x123456789ABCDEF0#64) 0x330000000000000000#72 =
    some (0xEDCBA9876543210F#64, 0x00#6, some .completed) := by decide

theorem test_cmp_V142 : outcome (startAt 0x7FFFFFFFFFFFFFFF#64) 0x408000000000000000#72 =
    some (0x7FFFFFFFFFFFFFFF#64, 0x10#6, some .completed) := by decide

theorem test_cmp_V145 : outcome (startAt 0x8000000000000006#64) 0x408000000000000005#72 =
    some (0x8000000000000006#64, 0x20#6, some .completed) := by decide

theorem test_todec_V157 : decimalAfter (startAt 0xFFFFFFFFFFFFFFFF#64) 0x500000000000000000#72 =
    some (0x18446744073709551615#80, 20#5) := by decide

theorem test_todec_V149 : decimalAfter (startAt 0#64) 0x500000000000000000#72 = some (0#80, 1#5) := by decide

/-- V164: a fault keeps FLAGS, here the C of an earlier ADD. -/
theorem test_illegal_V164 : outcome ((startAt 7#64).complete 0x01#6) 0x170000000000000000#72 =
    some (7#64, 0x01#6, some (.faulted .illegalCommand)) := by decide

/-- Program 3, index 1: the source's scenario, with the response as one number (0b101). -/
theorem test_division_by_zero_response :
    (outcome (startAt 10#64) 0x130000000000000000#72).map (fun x => x.2.2.map responseBits) = some (some 0b101#3) := by
  decide

/-- V111 and V117: an amount of 64, for either value of SHIFT_OVERWIDTH. -/
theorem test_overwidth_64 : shiftLeft (shiftAmount .zero 64#64) 0xFFFFFFFFFFFFFFFF#64 = 0#64 ∧
    shiftLeft (shiftAmount .mod64 64#64) 0xFFFFFFFFFFFFFFFF#64 = 0xFFFFFFFFFFFFFFFF#64 := by decide

/-- V115 and V121: the largest amount below 2^63. -/
theorem test_overwidth_largest :
    shiftRight (shiftAmount .zero 0x7FFFFFFFFFFFFFFF#64) 0xFFFFFFFFFFFFFFFF#64 = 0#64 ∧
      shiftRight (shiftAmount .mod64 0x7FFFFFFFFFFFFFFF#64) 0xFFFFFFFFFFFFFFFF#64 = 1#64 := by decide

/-- A reset abandons a command in flight (R171). -/
theorem test_abandoned : step { startAt 5#64 with inputs := [.abandoned 0x100000000000000001#72] } = .next State.reset :=
  rfl

/-- The host refuses a digit that is not below the radix, and takes no step (R147, U16). -/
theorem test_parse_bad_digit : parse 10#64 [12#64] (startAt 5#64) = .rejected (startAt 5#64) := by decide

/-- Hexadecimal letters in either case. -/
theorem test_asm_text_hex : assembleText "ADD 0xfA".toList = .ok (some 0x1000000000000000FA#72) := by decide

theorem test_first_after_reset :
    outcome State.reset 0x100000000000000005#72 = some (5#64, 0x00#6, some .completed) := by decide

theorem test_withFetchWord :
    (State.reset.withFetchWord 72 0x150000000000000000).inputs = [.command 0x150000000000000000#72] := by decide

/-! ### The reference datapaths, on vectors of the spec -/

theorem test_adder_V17 : addDatapath ⟨0#1, 0x6000000000000000#63⟩ ⟨0#1, 0x6000000000000000#63⟩ =
    (⟨1#1, 0x4000000000000000#63⟩, false) := by decide

theorem test_subtractor_V28 : subDatapath ⟨1#1, 0#63⟩ ⟨1#1, 0x7FFFFFFFFFFFFFFF#63⟩ = (⟨1#1, 1#63⟩, true) := by decide

theorem test_multiplier_V53 : mulDatapath ⟨0#1, 0x5555555555555556#63⟩ ⟨0#1, 3#63⟩ = (⟨0#1, 2#63⟩, true) := by decide

theorem test_divider_V85_V86 : divModDatapath 4 ⟨1#1, 5#63⟩ ⟨0#1, 0x4000000000000001#63⟩ = (⟨0#1, 2#63⟩, ⟨0#1, 3#63⟩) := by
  decide

theorem test_decimal_V156 : decimalWord (decimalDatapathDigits ⟨1#1, 1#63⟩) = 0x09223372036854775809#80 ∧
    decimalDatapathLength ⟨1#1, 1#63⟩ = 19 := by decide

/-! ### Witnesses: the hypotheses of the statements can be met -/

theorem test_witness_DecodeEncodeRoundTrip :
    Instr.wellFormed (.xor 0x8000000000000001#64) = true := rfl

theorem test_witness_DecodedWordEncodesBack :
    decode 0x12000000000000000A#72 = .ok (.mul 10#64) ∧ (Instr.mul 10#64).format ≠ .N ∧
    decode 0x150000000000000001#72 = .ok .inc ∧ Instr.inc.format = .N := by decide

theorem test_witness_IllegalOpcodesFault_low_ends :
    (opcField 0x000000000000000005#72).toNat = 0 ∧ (opcField 0x020000000000000005#72).toNat = 0x02 ∧
    (opcField 0x170000000000000000#72).toNat = 0x17 ∧ (opcField 0x240000000000000000#72).toNat = 0x24 ∧
    (opcField 0x340000000000000000#72).toNat = 0x34 ∧ (opcField 0x410000000000000000#72).toNat = 0x41 ∧
    (opcField 0x510000000000000000#72).toNat = 0x51 := by decide

theorem test_witness_IllegalOpcodesFault_high_ends :
    (opcField 0x0F0000000000000000#72).toNat = 0x0F ∧ (opcField 0x1F0000000000000000#72).toNat = 0x1F ∧
    (opcField 0x2F0000000000000000#72).toNat = 0x2F ∧ (opcField 0x3F0000000000000000#72).toNat = 0x3F ∧
    (opcField 0x4F0000000000000000#72).toNat = 0x4F ∧ (opcField 0xFF0000000000000000#72).toNat = 0xFF := by decide

theorem test_witness_IllegalOpcodesFault_legal_beside_them :
    (opcField 0x010000000000000000#72).toNat = 0x01 ∧ (opcField 0x100000000000000000#72).toNat = 0x10 ∧
    (opcField 0x160000000000000000#72).toNat = 0x16 ∧ (opcField 0x230000000000000000#72).toNat = 0x23 ∧
    (opcField 0x330000000000000000#72).toNat = 0x33 ∧ (opcField 0x400000000000000000#72).toNat = 0x40 ∧
    (opcField 0x500000000000000000#72).toNat = 0x50 := by decide

theorem test_witness_FormatNIgnoresOperand :
    Instr.inc.format = .N ∧ Instr.dec.format = .N ∧ Instr.not.format = .N ∧
    Instr.todec.format = .N := by decide

theorem test_witness_StepRunsDecodedCommand :
    ((startAt 1#64).present 0x110000000000000005#72).inputs = [.command 0x110000000000000005#72] ∧
    decode 0x110000000000000005#72 = .ok (.sub 5#64) ∧ (Instr.sub 5#64).wellFormed = true := by decide

theorem test_witness_EveryCommandGetsResponse :
    (State.reset.present 0xFFFFFFFFFFFFFFFFFF#72).inputs = [.command 0xFFFFFFFFFFFFFFFFFF#72] := by decide

theorem test_witness_IdleCoreHoldsState :
    (startAt 3#64).inputs = [] := by decide

theorem test_witness_ResetFromEveryState :
    ({ startAt 3#64 with inputs := [.reset] } : State).inputs = [.reset] ∧
    ({ startAt 3#64 with inputs := [.abandoned 1#72] } : State).inputs = [.abandoned 1#72] := by decide

theorem test_witness_ExactlyTwoFaults :
    ∃ t u, step ((startAt 3#64).present 0x130000000000000000#72) = .next t ∧
    step ((startAt 3#64).present 0x60000000000000FFFF#72) = .next u := ⟨_, _, rfl, rfl⟩

theorem test_witness_FaultChangesNothing :
    ∃ t, step ((startAt 3#64).present 0x140000000000000000#72) = .next t ∧
    t.rsp = some (.faulted .divisionByZero) := ⟨_, rfl, by decide⟩

theorem test_witness_FaultLeavesNoTrace :
    ∃ t, step ((startAt 3#64).present 0x600000000000000000#72) = .next t ∧
    t.rsp = some (.faulted .illegalCommand) := ⟨_, rfl, by decide⟩

theorem test_witness_FlagsMeaning :
    ∃ t, exec (.cmp 4#64) (startAt 3#64) = .next t ∧ t.rsp = some .completed := ⟨_, rfl, by decide⟩

theorem test_witness_ResultDependsOnAccAlone :
    (startAt 3#64).accH = ((startAt 3#64).complete 1#6).accH ∧
    (startAt 3#64).accL = ((startAt 3#64).complete 1#6).accL ∧
    ∃ t u, exec (.lsl 4#64) (startAt 3#64) = .next t ∧ exec (.lsl 4#64) ((startAt 3#64).complete 1#6) = .next u := ⟨by decide, by decide, _, _, rfl, rfl⟩

theorem test_witness_OnlyTodecWritesDecimal :
    ∃ t, step ((startAt 9#64).present 0x500000000000000000#72) = .next t := ⟨_, rfl⟩

theorem test_witness_StreamRunsWordsInOrder :
    ∃ t rs, runWords [0x150000000000000000#72, 0x130000000000000000#72] State.reset = some (t, rs) ∧
    ([0x150000000000000000#72, 0x130000000000000000#72] : List CommandWord) ≠ [] := ⟨_, _, rfl, by simp⟩

theorem test_witness_DivResult :
    (5#64 : Word) ≠ 0#64 ∧ (0#64 : Word) = 0#64 ∧ (0xFFFFFFFFFFFFFFFF#64 : Word) ≠ 0#64 := by decide

theorem test_witness_ShiftResults_ranges :
    (63#64 : Word).toNat < 64 ∧ 64 ≤ (64#64 : Word).toNat ∧ (0x7FFFFFFFFFFFFFFF#64 : Word).toNat < 2 ^ 63 ∧
    2 ^ 63 ≤ (0x8000000000000000#64 : Word).toNat := by decide

theorem test_witness_TodecResult :
    (startAt 1#64).accVal ≠ 0 ∧ (startAt 0#64).accVal < 10 ^ 1 := by decide

theorem test_witness_TodecBoundaries :
    (startAt 0x7FFFFFFFFFFFFFFF#64).accVal = 2 ^ 63 - 1 ∧ (startAt 0x8000000000000000#64).accVal = 2 ^ 63 ∧
    (startAt 0xFFFFFFFFFFFFFFFF#64).accVal = 2 ^ 64 - 1 ∧
    ∃ t, exec .todec (startAt 0xFFFFFFFFFFFFFFFF#64) = .next t := ⟨by decide, by decide, by decide, _, rfl⟩

theorem test_witness_CmpTrichotomy :
    ∃ t u, exec (.cmp 9#64) (startAt 3#64) = .next t ∧
    exec (.cmp (startAt 3#64).accPat) ((startAt 3#64).writeAcc 9#64) = .next u := ⟨_, _, rfl, rfl⟩

theorem test_witness_DivisionFixedByIdentity :
    (3#64 : Word) ≠ 0#64 ∧ (startAt 10#64).accVal = 3 * (3#64 : Word).toNat + 1 ∧
    1 < (3#64 : Word).toNat := by decide

theorem test_witness_AddDatapathRefines :
    ∃ t u, exec (.add 9#64) (startAt 3#64) = .next t ∧ exec .inc (startAt 3#64) = .next u := ⟨_, _, rfl, rfl⟩

theorem test_witness_SubDatapathRefines :
    ∃ t u, exec (.sub 9#64) (startAt 3#64) = .next t ∧ exec .dec (startAt 3#64) = .next u := ⟨_, _, rfl, rfl⟩

theorem test_witness_MulDatapathRefines :
    ∃ t, exec (.mul 9#64) (startAt 3#64) = .next t := ⟨_, rfl⟩

theorem test_witness_DivModDatapathRefines :
    (9#64 : Word) ≠ 0#64 ∧ ∃ t u, exec (.div 9#64) (startAt 30#64) = .next t ∧
    exec (.mod 9#64) (startAt 30#64) = .next u := ⟨by decide, _, _, rfl, rfl⟩

theorem test_witness_ShiftDatapathRefines :
    shiftAmount Config.shiftOverwidth 0#64 = some 0 ∧
    shiftAmount Config.shiftOverwidth 63#64 = some 63 := ⟨rfl, rfl⟩

theorem test_witness_DecimalDatapathRefines :
    ∃ t, exec .todec (startAt 3#64) = .next t := ⟨_, rfl⟩

theorem test_witness_FlagsMakeResultsExact :
    ∃ t, exec (.mul 9#64) (startAt 3#64) = .next t ∧ flagV t.flags = false ∧
    ∃ u, exec (.mul 0x8000000000000000#64) (startAt 2#64) = .next u ∧ flagV u.flags = true := ⟨_, rfl, by decide, _, rfl, by decide⟩

theorem test_witness_AddLaws :
    ∃ t, exec (.add 0xFFFFFFFFFFFFFFFF#64) (startAt 3#64) = .next t ∧ flagC t.flags = true := ⟨_, rfl, by decide⟩

theorem test_witness_AddSubInverse :
    ∃ t u, exec (.add 9#64) (startAt 3#64) = .next t ∧ exec (.sub 9#64) t = .next u := ⟨_, _, rfl, rfl⟩

theorem test_witness_AddSubInverse_other_way :
    ∃ t u, exec (.sub 9#64) (startAt 3#64) = .next t ∧ exec (.add 9#64) t = .next u := ⟨_, _, rfl, rfl⟩

theorem test_witness_AddSubInverse_inc_dec :
    ∃ t u v x, exec .inc (startAt 3#64) = .next t ∧ exec .dec t = .next u ∧
    exec .dec (startAt 3#64) = .next v ∧ exec .inc v = .next x := ⟨_, _, _, _, rfl, rfl, rfl, rfl⟩

theorem test_witness_MulLaws :
    ∃ t, exec (.mul 9#64) (startAt 3#64) = .next t ∧ flagV t.flags = false ∧ (9#64 : Word) ≠ 0#64 := ⟨_, rfl, by decide, by decide⟩

theorem test_witness_MulOverflowByLength :
    bitLength (startAt 0x7FFFFFFF#64).accVal + bitLength (0xFFFFFFFF#64 : Word).toNat = 63 ∧
    bitLength (startAt 0xFFFFFFFF#64).accVal + bitLength (0xFFFFFFFF#64 : Word).toNat = 64 ∧
    bitLength (startAt 0x1FFFFFFFF#64).accVal + bitLength (0x1FFFFFFFF#64 : Word).toNat = 66 := by decide

theorem test_witness_DivisionIdentityRun :
    (9#64 : Word) ≠ 0#64 ∧ (startAt 8#64).accVal < (9#64 : Word).toNat ∧
    ∃ t u, exec (.div 9#64) (startAt 8#64) = .next t ∧ exec (.mod 9#64) (startAt 8#64) = .next u := ⟨by decide, by decide, _, _, rfl, rfl⟩

theorem test_witness_ShiftLaws :
    (63#64 : Word).toNat ≤ 63 ∧ ∃ t u, exec (.lsl 63#64) (startAt 3#64) = .next t ∧
    exec (.lsr 63#64) (startAt 3#64) = .next u := ⟨by decide, _, _, rfl, rfl⟩

theorem test_witness_BitwiseLaws :
    ∃ t u v x, exec (.and 9#64) (startAt 3#64) = .next t ∧ exec (.and 9#64) t = .next u ∧
    exec (.xor 9#64) (startAt 3#64) = .next v ∧ exec (.xor 9#64) v = .next x := ⟨_, _, _, _, rfl, rfl, rfl, rfl⟩

theorem test_witness_ParseAcceptsExactly_refused :
    (1#64 : Word).toNat < 2 ∧ ([] : List Word) = [] ∧
    ∃ d ∈ ([4#64, 10#64] : List Word), (10#64 : Word).toNat ≤ d.toNat := ⟨by decide, rfl, 10#64, by simp, by decide⟩

theorem test_witness_ParseAcceptsExactly_accepted :
    2 ≤ (10#64 : Word).toNat ∧ ([4#64, 2#64] : List Word) ≠ [] ∧
    (∀ d ∈ ([4#64, 2#64] : List Word), d.toNat < (10#64 : Word).toNat) ∧ numeralValue 10 [4#64, 2#64] < 2 ^ 64 := ⟨by decide, by simp, by simp, by decide⟩

theorem test_witness_ParseAcceptsExactly_rejected :
    2 ≤ (0x8000000000000000#64 : Word).toNat ∧ ([2#64, 0#64] : List Word) ≠ [] ∧
    (∀ d ∈ ([2#64, 0#64] : List Word), d.toNat < (0x8000000000000000#64 : Word).toNat) ∧
    2 ^ 64 ≤ numeralValue (2 ^ 63) [2#64, 0#64] := ⟨by decide, by simp, by simp, by decide⟩

theorem test_witness_TodecParseRoundTrip :
    ∃ t, exec .todec (startAt 0#64) = .next t := ⟨_, rfl⟩

theorem test_witness_AssembledWords :
    Mnemonic.format .add ≠ .N ∧ (0 : Int) ≤ 2 ^ 64 - 1 ∧ (2 ^ 64 - 1 : Int) < 2 ^ 64 ∧ (-1 : Int) < 0 ∧
    Mnemonic.format .max = .N ∧ Mnemonic.format .todec = .N ∧ (2 ^ 64 : Int) ≤ 2 ^ 64 := by decide

/-- A state that meets the invariant and is not the reset state: C is 1 and DEC is still empty. -/
theorem test_witness_StepKeepsInvariant :
    Inv ((startAt 5#64).complete 1#6) ∧ ∃ t, step ((startAt 5#64).complete 1#6) = .next t := by
  have one : ∀ i, ((startAt 5#64).complete 1#6).flags.getLsbD i = true → i = 0 := by
    intro i h
    have k : i < 6 := BitVec.lt_of_getLsbD h
    have all : ∀ j : Fin 6, (1#6).getLsbD j.val = true → j.val = 0 := by decide
    exact all ⟨i, k⟩ h
  refine ⟨⟨fun i j hi hj => (one i hi).trans (one j hj).symm, ?_, ?_, ?_, ?_, ?_⟩, _, rfl⟩
  · decide
  · decide
  · decide
  · decide
  · decide

end Sys2Proof.Tests
end

/-! PROOFS. The reset values (spec/10_state.md R33) and the meaning of each flag after a completed command (R23, R24):
the bits of each flag computation, the FLAGS that each command completes with, and the table of R23 read off from both. -/

namespace Sys2Proof.Machine

open Sys2Proof

/-! ### The bits of each flag computation -/

theorem carryFlags_getLsbD (sum i : Nat) :
    (carryFlags sum).getLsbD i = decide (i = 0 ∧ 2 ^ 64 ≤ sum) := by
  simp [carryFlags, flagsWord_getLsbD]

theorem borrowFlags_getLsbD (diff : Int) (i : Nat) :
    (borrowFlags diff).getLsbD i = decide (i = 1 ∧ diff < 0) := by
  simp [borrowFlags, flagsWord_getLsbD]

theorem overflowFlags_getLsbD (prod i : Nat) :
    (overflowFlags prod).getLsbD i = decide (i = 2 ∧ 2 ^ 64 ≤ prod) := by
  simp [overflowFlags, flagsWord_getLsbD]

/-- The three bits of CMP on the magnitudes (R135, R136). -/
theorem compareFlags_getLsbD (p q : Split) (i : Nat) :
    (compareFlags p q).getLsbD i =
      decide (i = 3 ∧ p.val = q.val ∨ i = 4 ∧ p.val < q.val ∨ i = 5 ∧ q.val < p.val) := by
  rw [Bool.eq_iff_iff]
  simp [compareFlags, flagsWord_getLsbD, Split.eq_iff_val, Split.lt_iff_val, Split.gt_iff_val, or_assoc]

/-! ### The FLAGS that each command completes with -/

/-- FLAGS after the command `i` completes from `s` (R24): six commands compute flags, the others write zeros. -/
def commandFlags (i : Instr) (s : State) : BitVec 6 :=
  match i with
  | .add b => carryFlags (s.accVal + operandVal b)
  | .inc => carryFlags (s.accVal + 1)
  | .sub b => borrowFlags ((s.accVal : Int) - (operandVal b : Int))
  | .dec => borrowFlags ((s.accVal : Int) - 1)
  | .mul b => overflowFlags (s.accVal * operandVal b)
  | .cmp b => compareFlags s.acc (operandPair b)
  | .load _ | .div _ | .mod _ | .asl _ | .asr _ | .lsl _ | .lsr _ | .and _ | .or _ | .xor _ | .not | .todec => noFlags

/-- Every command completes with its `commandFlags`, or raises DivisionByZero. -/
theorem exec_complete_or_raise (i : Instr) (s : State) :
    (∃ u : State, exec i s = .next (u.complete (commandFlags i s))) ∨ exec i s = .next (s.raise .divisionByZero) := by
  cases i with
  | div b =>
    by_cases h : operandVal b = 0
    · exact .inr (if_pos h)
    · exact .inl ⟨_, if_neg h⟩
  | mod b =>
    by_cases h : operandVal b = 0
    · exact .inr (if_pos h)
    · exact .inl ⟨_, if_neg h⟩
  | _ => exact .inl ⟨_, rfl⟩

theorem flags_of_exec_completed {i : Instr} {s t : State} (h : exec i s = .next t) (hc : t.rsp = some .completed) :
    t.flags = commandFlags i s := by
  rcases exec_complete_or_raise i s with ⟨u, hu⟩ | hr
  · cases hu.symm.trans h
    exact State.complete_flags u _
  · cases hr.symm.trans h
    simp at hc

/-- The table of R23, command by command. -/
theorem commandFlags_meaning (i : Instr) (s : State) :
    ((commandFlags i s).getLsbD 0 = true ↔
      (∃ b, i = .add b ∧ 2 ^ 64 ≤ s.accVal + b.toNat) ∨ (i = .inc ∧ 2 ^ 64 ≤ s.accVal + 1)) ∧
    ((commandFlags i s).getLsbD 1 = true ↔
      (∃ b, i = .sub b ∧ s.accVal < b.toNat) ∨ (i = .dec ∧ s.accVal < 1)) ∧
    ((commandFlags i s).getLsbD 2 = true ↔ ∃ b, i = .mul b ∧ 2 ^ 64 ≤ s.accVal * b.toNat) ∧
    ((commandFlags i s).getLsbD 3 = true ↔ ∃ b, i = .cmp b ∧ s.accVal = b.toNat) ∧
    ((commandFlags i s).getLsbD 4 = true ↔ ∃ b, i = .cmp b ∧ s.accVal < b.toNat) ∧
    ((commandFlags i s).getLsbD 5 = true ↔ ∃ b, i = .cmp b ∧ b.toNat < s.accVal) := by
  cases i with
  | add b =>
    simp only [commandFlags, carryFlags_getLsbD, operandVal]
    simp
  | inc =>
    simp only [commandFlags, carryFlags_getLsbD]
    simp
  | sub b =>
    have borrow : (s.accVal : Int) - (b.toNat : Int) < 0 ↔ s.accVal < b.toNat := by omega
    simp only [commandFlags, borrowFlags_getLsbD, operandVal, borrow]
    simp
  | dec =>
    have borrow : (s.accVal : Int) - 1 < 0 ↔ s.accVal < 1 := by omega
    simp only [commandFlags, borrowFlags_getLsbD, borrow]
    simp
  | mul b =>
    simp only [commandFlags, overflowFlags_getLsbD, operandVal]
    simp
  | cmp b =>
    simp only [commandFlags, compareFlags_getLsbD, operandPair_val, operandVal, State.accVal]
    simp
  | _ => simp [commandFlags]

/-! ### The obligations -/

/-- Settles O19: the FLAGS that the command completes with are `commandFlags`, which is as the table of R23 says. -/
theorem flagsMeaning : Obligations.FlagsMeaning := by
  intro i s t h hc
  rw [flags_of_exec_completed h hc]
  exact commandFlags_meaning i s

/-- A digit of a cleared DEC (R26). -/
@[simp] theorem decDigit_zero (i : Nat) : decDigit 0#80 i = 0#4 := by
  simp [decDigit]

/-- Settles O10: the fields of the reset state, the digits of DEC by `decDigit_zero`. -/
theorem resetValues : Obligations.ResetValues :=
  ⟨rfl, rfl, rfl, fun i _ => decDigit_zero i, rfl, rfl⟩

end Sys2Proof.Machine

/-! PROOFS. The encoding (spec/30_encoding.md): the decoder as one equivalence, the rows of R56 by mask and match, the
illegal opcodes of R57, the ignored operand of format N (R53), the response as a number (R54) and the
pseudo-instructions (R61). -/

namespace Sys2Proof

/-! ### The decoder -/

/-- A command has no operand exactly in format N (R51). -/
theorem Instr.operand_eq_none_iff (i : Instr) : i.operand = none ↔ i.format = .N := by
  cases i <;> simp [Instr.operand, Instr.format]

/-- The decoder in one equivalence: the word has the command's opcode, and the command carries the word's operand field
or nothing. -/
theorem decode_eq_ok_iff (w : CommandWord) (i : Instr) :
    decode w = .ok i ↔ opcField w = opcodeOf i ∧ (i.operand = none ∨ i.operand = some (opdField w)) := by
  constructor
  · intro h
    unfold decode at h
    split at h <;> cases h
    all_goals exact ⟨‹opcField w = _›, by simp [Instr.operand]⟩
  · rintro ⟨hopc, hopd⟩
    cases i <;> simp_all [decode, opcodeOf, Instr.operand]

/-- A word with the opcode of a format N command decodes to that command, whatever its operand field (R53). -/
theorem decode_append_of_formatN {i : Instr} (h : i.format = .N) (d : Word) : decode (opcodeOf i ++ d) = .ok i :=
  (decode_eq_ok_iff _ i).2 ⟨opcField_append _ _, .inl (i.operand_eq_none_iff.2 h)⟩

/-! ### The rows of the opcode table -/

/-- `match` of a row is the row's opcode above a zero operand field (R56). -/
theorem rowMatch_eq (i : Instr) : rowMatch i = opcodeOf i ++ 0#64 := by
  cases i <;> simp only [rowMatch, opcodeOf] <;> decide

/-- A word selects the row of a command exactly when it has the command's opcode. -/
theorem and_rowMask_eq_rowMatch_iff (w : CommandWord) (i : Instr) :
    w &&& rowMask = rowMatch i ↔ opcField w = opcodeOf i := by
  have masked : w &&& rowMask = opcField w ++ 0#64 := by
    conv_lhs => rw [commandWord_eq w]
    exact Laws.Selects.mask_append _ _
  rw [masked, rowMatch_eq]
  constructor
  · intro h
    simpa using congrArg opcField h
  · intro h
    rw [h]

/-! ### The illegal opcodes -/

/-- The seven ranges of illegal opcodes (R57). -/
def IllegalOpcode (o : Nat) : Prop :=
  o = 0 ∨ (0x02 ≤ o ∧ o ≤ 0x0F) ∨ (0x17 ≤ o ∧ o ≤ 0x1F) ∨ (0x24 ≤ o ∧ o ≤ 0x2F) ∨ (0x34 ≤ o ∧ o ≤ 0x3F) ∨
    (0x41 ≤ o ∧ o ≤ 0x4F) ∨ (0x51 ≤ o ∧ o ≤ 0xFF)

theorem not_illegalOpcode_opcodeOf (i : Instr) : ¬ IllegalOpcode (opcodeOf i).toNat := by
  cases i <;> simp [IllegalOpcode, opcodeOf]

/-- Only the words of the seven ranges are refused: what is left beside the 18 opcodes of R56 lies in them. -/
theorem illegalOpcode_of_decode_error {w : CommandWord} {e : DecodeError} (h : decode w = .error e) :
    IllegalOpcode (opcField w).toNat := by
  unfold decode at h
  split at h <;> cases h
  have small := (opcField w).isLt
  simp only [← BitVec.toNat_inj, BitVec.toNat_ofNat, imp_false] at *
  unfold IllegalOpcode
  omega

/-- The ranges of R57 are exactly the words that do not decode. -/
theorem exists_decode_ok_iff (w : CommandWord) : (∃ i, decode w = .ok i) ↔ ¬ IllegalOpcode (opcField w).toNat := by
  constructor
  · rintro ⟨i, h⟩
    rw [((decode_eq_ok_iff w i).1 h).1]
    exact not_illegalOpcode_opcodeOf i
  · intro legal
    cases h : decode w with
    | ok i => exact ⟨i, rfl⟩
    | error e => exact absurd (illegalOpcode_of_decode_error h) legal

end Sys2Proof

namespace Sys2Proof.Machine

open Sys2Proof

/-! ### Steps on a presented word, and what they answer -/

theorem step_present_of_decode_ok {w : CommandWord} {i : Instr} (h : decode w = .ok i) (s : State) :
    step (s.present w) = exec i s := by
  rw [step_present, h]

theorem step_present_of_decode_error {w : CommandWord} {e : DecodeError} (h : decode w = .error e) (s : State) :
    step (s.present w) = .next s.takeIllegalCommand := by
  rw [step_present, h]

theorem step_present_of_illegalOpcode {w : CommandWord} (h : IllegalOpcode (opcField w).toNat) (s : State) :
    step (s.present w) = .next s.takeIllegalCommand := by
  cases hd : decode w with
  | ok i => exact absurd h ((exists_decode_ok_iff w).1 ⟨i, hd⟩)
  | error e => exact step_present_of_decode_error hd s

/-- Raising a fault is a fault: nothing but the response changes (R156). -/
theorem faulted_raise (s : State) (c : Cause) : Faulted s (s.raise c) c := by
  simp [Faulted, SameArch]

/-- Completing from a state with the stream of `s` completes the command begun in `s`. -/
theorem completed_complete {s u : State} (f : BitVec 6) (h : u.inputs = s.inputs) : Completed s (u.complete f) :=
  ⟨State.complete_rsp u f, (State.complete_inputs u f).trans h⟩

/-- A command of format N never faults (R53). -/
theorem exec_completes_of_formatN {i : Instr} (h : i.format = .N) (s : State) :
    ∃ t, exec i s = .next t ∧ Completed s t := by
  cases i with
  | inc => exact ⟨_, rfl, completed_complete _ (State.writeAcc_inputs _ _)⟩
  | dec => exact ⟨_, rfl, completed_complete _ (State.writeAcc_inputs _ _)⟩
  | not => exact ⟨_, rfl, completed_complete _ (State.writeAccPair_inputs _ _)⟩
  | todec => exact ⟨_, rfl, completed_complete _ (State.writeDecimal_inputs _ _ _)⟩
  | _ => cases h

/-! ### The response as a number -/

theorem responseBits_completed : responseBits .completed = 0b000#3 := by decide

theorem responseBits_divisionByZero : responseBits (.faulted .divisionByZero) = 0b101#3 := by decide

theorem responseBits_illegalCommand : responseBits (.faulted .illegalCommand) = 0b110#3 := by decide

theorem faultField_eq_zero_iff (r : Response) : faultField r = 0#1 ↔ r = .completed := by
  cases r <;> simp [faultField]

/-- Cause code 3 is never produced (R155). -/
theorem causeField_ne_three (r : Response) : causeField r ≠ 3#2 := by
  cases r with
  | completed => decide
  | faulted c => cases c <;> decide

/-! ### The assembler, LOAD and CMP -/

/-- Two lines that the checks treat alike and that stand for one command are assembled alike. -/
theorem assemble_congr {l k : AsmLine} (hcheck : l.check = k.check)
    (hexpand : expand l.mnemonic (BitVec.ofInt 64 (l.literal.getD 0)) =
      expand k.mnemonic (BitVec.ofInt 64 (k.literal.getD 0))) : assemble l = assemble k := by
  simp only [assemble, hcheck, hexpand]

/-- A line that passes the checks is assembled to the word of its command. -/
theorem assemble_of_check {l : AsmLine} (h : l.check = .ok ()) :
    assemble l = .ok (encode (expand l.mnemonic (BitVec.ofInt 64 (l.literal.getD 0)))) := by
  simp only [assemble, h]

/-- LOAD leaves its operand in ACC (R70). -/
theorem exec_load_accVal (b : Word) (s : State) : ∃ t, exec (.load b) s = .next t ∧ t.accVal = b.toNat :=
  ⟨_, rfl, by simp [State.accVal, operandPair_val, operandVal]⟩

/-- CMP's flags are the three comparisons of the magnitudes (R136). -/
theorem exec_cmp_flags (b : Word) (s : State) :
    ∃ t, exec (.cmp b) s = .next t ∧ (flagEQ t.flags = true ↔ s.accVal = b.toNat) ∧
      (flagGT t.flags = true ↔ b.toNat < s.accVal) ∧ (flagLT t.flags = true ↔ s.accVal < b.toNat) := by
  refine ⟨_, rfl, ?_⟩
  simp [compareFlags, Split.eq_iff_val, Split.gt_iff_val, Split.lt_iff_val, operandPair_val, operandVal, State.accVal]

/-! ### The obligations -/

/-- Settles O3: mask and match select by the opcode, and the opcode with the operand field is what the decoder reads. -/
theorem rowsSelectByMask : Obligations.RowsSelectByMask := by
  intro w i
  rw [and_rowMask_eq_rowMatch_iff]
  exact decode_eq_ok_iff w i

/-- Settles O4: a word of the seven ranges takes the illegal command, every other word decodes. -/
theorem illegalOpcodesFault : Obligations.IllegalOpcodesFault := by
  intro w s o illegal
  refine ⟨fun h => ?_, (exists_decode_ok_iff w).2⟩
  exact ⟨_, step_present_of_illegalOpcode h s, faulted_raise s .illegalCommand, rfl, rfl⟩

/-- Settles O5: the word decodes to the command for every operand field, and the four commands of format N complete. -/
theorem formatNIgnoresOperand : Obligations.FormatNIgnoresOperand := by
  intro i d s h
  have same : ∀ d', step (s.present (opcodeOf i ++ d')) = exec i s := fun d' =>
    step_present_of_decode_ok (decode_append_of_formatN h d') s
  have field : operandField i = 0#64 := by rw [operandField, i.operand_eq_none_iff.2 h, Option.getD_none]
  refine ⟨field, (same d).trans (same (operandField i)).symm, ?_⟩
  rw [same d]
  exact exec_completes_of_formatN h s

/-- Settles O15: the three responses one by one. -/
theorem responseNumbers : Obligations.ResponseNumbers := by
  refine ⟨fun r => ?_, faultField_eq_zero_iff, rfl, rfl, rfl, causeField_ne_three⟩
  match r with
  | .completed => exact .inl responseBits_completed
  | .faulted .divisionByZero => exact .inr (.inl responseBits_divisionByZero)
  | .faulted .illegalCommand => exact .inr (.inr responseBits_illegalCommand)

/-- Settles O59: each pair of lines passes the same check and stands for one command, and what the three commands do is
the general rule of LOAD and of CMP at the operand. -/
theorem pseudoInstructions : Obligations.PseudoInstructions := by
  refine ⟨assemble_congr rfl rfl, assemble_of_check rfl, assemble_congr rfl rfl, assemble_of_check rfl,
    assemble_congr rfl rfl, assemble_of_check rfl, fun n => assemble_congr rfl rfl, fun s => ?_⟩
  obtain ⟨t, ht, tval⟩ := exec_load_accVal 0#64 s
  obtain ⟨u, hu, ueq, ugt, ult⟩ := exec_cmp_flags 0#64 s
  obtain ⟨v, hv, vval⟩ := exec_load_accVal 0xFFFFFFFFFFFFFFFF#64 s
  refine ⟨t, u, v, ht, tval, hu, ueq, ?_, ?_, hv, vval⟩
  · rw [ugt]
    exact Nat.pos_iff_ne_zero
  · simpa using ult

end Sys2Proof.Machine

/-! PROOFS. LOAD (spec/40_load.md R70): what the command leaves in the registers. -/

namespace Sys2Proof.Machine

open Sys2Proof

/-- Completing from a state with the DEC and DLEN of `s` keeps them: only the write of TODEC changes them (R27). -/
theorem keepsDecimal_complete {s u : State} (f : BitVec 6) (h : KeepsDecimal s u) : KeepsDecimal s (u.complete f) := by
  obtain ⟨hdec, hdlen⟩ := h
  exact ⟨(State.complete_dec u f).trans hdec, (State.complete_dlen u f).trans hdlen⟩

/-- A write of ACC keeps DEC and DLEN (R10). -/
theorem keepsDecimal_writeAccPair (s : State) (p : Split) : KeepsDecimal s (s.writeAccPair p) :=
  ⟨State.writeAccPair_dec s p, State.writeAccPair_dlen s p⟩

/-- LOAD writes the pair of its operand to ACC and completes without flags. -/
theorem exec_load (b : Word) (s : State) :
    exec (.load b) s = .next ((s.writeAccPair (operandPair b)).complete noFlags) := rfl

/-- Settles O24: ACC is the pair of the operand (so its value is the operand's, `exec_load_accVal`), and a write of ACC
followed by completing keeps the rest. -/
theorem loadResult : Obligations.LoadResult := by
  intro b s
  obtain ⟨t, ht, hval⟩ := exec_load_accVal b s
  cases (exec_load b s).symm.trans ht
  refine ⟨_, ht, completed_complete _ (State.writeAccPair_inputs _ _),
    keepsDecimal_complete _ (keepsDecimal_writeAccPair _ _), ?accH, ?accL, hval, ?flags, rfl, rfl⟩
  case accH => rw [State.complete_accH, State.writeAccPair_accH, operandPair, Split.ofWord]
  case accL => rw [State.complete_accL, State.writeAccPair_accL, operandPair, Split.ofWord]
  case flags => rw [State.complete_flags, noFlags_eq]

end Sys2Proof.Machine

/-! PROOFS. ADD, SUB, INC and DEC (spec/41_add_sub.md R75, R76, R80, R84, R86): what the two shared results leave in the
registers, and INC and DEC as ADD 1 and SUB 1. -/

namespace Sys2Proof.Machine

open Sys2Proof

/-! ### A command that writes ACC and completes -/

/-- Writing a pattern to ACC and completing answers `ok` and keeps the stream. -/
theorem completed_writeAcc_complete (s : State) (v : Word) (f : BitVec 6) : Completed s ((s.writeAcc v).complete f) :=
  completed_complete f (State.writeAcc_inputs s v)

/-- Writing a pattern to ACC and completing keeps DEC and DLEN (R27). -/
theorem keepsDecimal_writeAcc_complete (s : State) (v : Word) (f : BitVec 6) :
    KeepsDecimal s ((s.writeAcc v).complete f) :=
  keepsDecimal_complete f (keepsDecimal_writeAccPair s (Split.ofWord v))

/-! ### The shared results of R75 -/

/-- An addition in one lemma: ACC is the sum modulo 2^64, C alone can be 1, and the rest is kept. -/
theorem State.finishSum_spec (s : State) (sum : Nat) :
    Completed s (s.finishSum sum) ∧ KeepsDecimal s (s.finishSum sum) ∧ (s.finishSum sum).accVal = sum % 2 ^ 64 ∧
      ∀ i, (s.finishSum sum).flags.getLsbD i = true ↔ i = 0 ∧ 2 ^ 64 ≤ sum := by
  refine ⟨completed_writeAcc_complete _ _ _, keepsDecimal_writeAcc_complete _ _ _, ?accVal, fun i => ?flags⟩
  case accVal => rw [State.finishSum, accVal_writeAcc_complete, BitVec.toNat_ofNat]
  case flags => rw [State.finishSum, State.complete_flags, carryFlags_getLsbD, decide_eq_true_iff]

/-- A subtraction in one lemma: ACC is the difference modulo 2^64, B alone can be 1, and the rest is kept. -/
theorem State.finishDiff_spec (s : State) (diff : Int) :
    Completed s (s.finishDiff diff) ∧ KeepsDecimal s (s.finishDiff diff) ∧
      ((s.finishDiff diff).accVal : Int) = diff % 2 ^ 64 ∧
      ∀ i, (s.finishDiff diff).flags.getLsbD i = true ↔ i = 1 ∧ diff < 0 := by
  refine ⟨completed_writeAcc_complete _ _ _, keepsDecimal_writeAcc_complete _ _ _, ?accVal, fun i => ?flags⟩
  case accVal =>
    have nonneg : 0 ≤ diff % ((2 ^ 64 : Nat) : Int) := Int.emod_nonneg _ (by decide)
    rw [State.finishDiff, accVal_writeAcc_complete, BitVec.toNat_ofInt, Int.toNat_of_nonneg nonneg]
    norm_num
  case flags => rw [State.finishDiff, State.complete_flags, borrowFlags_getLsbD, decide_eq_true_iff]

/-! ### The four commands through them -/

theorem exec_add (b : Word) (s : State) : exec (.add b) s = .next (s.finishSum (s.accVal + b.toNat)) := rfl

theorem exec_sub (b : Word) (s : State) :
    exec (.sub b) s = .next (s.finishDiff ((s.accVal : Int) - (b.toNat : Int))) := rfl

/-- The operand of the ADD and the SUB that INC and DEC stand for (R84, R86). -/
theorem toNat_one_word : (1#64 : Word).toNat = 1 := BitVec.toNat_one (by decide)

/-- INC is ADD 1 on every state (R84). -/
theorem exec_inc_eq_add_one (s : State) : exec .inc s = exec (.add 1#64) s := by
  rw [exec_add, toNat_one_word]
  rfl

/-- DEC is SUB 1 on every state (R86). -/
theorem exec_dec_eq_sub_one (s : State) : exec .dec s = exec (.sub 1#64) s := by
  rw [exec_sub, toNat_one_word]
  rfl

/-! ### The obligations -/

/-- Settles O25: ADD is the shared addition at a + b. -/
theorem addResult : Obligations.AddResult := by
  intro b s
  obtain ⟨completed, decimal, value, flags⟩ := s.finishSum_spec (s.accVal + b.toNat)
  exact ⟨_, exec_add b s, completed, decimal, value, flags, rfl, rfl⟩

/-- Settles O26: SUB is the shared subtraction at a - b, which is below 0 exactly when a < b. -/
theorem subResult : Obligations.SubResult := by
  intro b s
  obtain ⟨completed, decimal, value, flags⟩ := s.finishDiff_spec ((s.accVal : Int) - (b.toNat : Int))
  have borrow : (s.accVal : Int) - (b.toNat : Int) < 0 ↔ s.accVal < b.toNat := by omega
  simp only [borrow] at flags
  exact ⟨_, exec_sub b s, completed, decimal, value, flags, rfl, rfl⟩

/-- Settles O30: INC is ADD 1, and a + 1 leaves 64 bits only at a = 2^64 - 1. -/
theorem incResult : Obligations.IncResult := by
  intro s
  obtain ⟨t, ht, completed, decimal, value, flags, -, -⟩ := addResult 1#64 s
  have carry : 2 ^ 64 ≤ s.accVal + 1 ↔ s.accVal = 2 ^ 64 - 1 := by
    have := s.accVal_lt
    omega
  simp only [toNat_one_word, carry] at value flags
  exact ⟨t, (exec_inc_eq_add_one s).trans ht, completed, decimal, value, flags, ht, rfl, rfl⟩

/-- Settles O31: DEC is SUB 1, and a - 1 is below 0 only at a = 0. -/
theorem decResult : Obligations.DecResult := by
  intro s
  obtain ⟨t, ht, completed, decimal, value, flags, -, -⟩ := subResult 1#64 s
  simp only [toNat_one_word, Nat.cast_one, Nat.lt_one_iff] at value flags
  exact ⟨t, (exec_dec_eq_sub_one s).trans ht, completed, decimal, value, flags, ht, rfl, rfl⟩

end Sys2Proof.Machine

/-! PROOFS. MUL (spec/42_multiply.md R92): what the command leaves in the registers. -/

namespace Sys2Proof.Machine

open Sys2Proof

/-- MUL writes the product modulo 2^64 to ACC and completes with the overflow flag of the whole product. -/
theorem exec_mul (b : Word) (s : State) :
    exec (.mul b) s = .next
      ((s.writeAcc (BitVec.ofNat 64 (s.accVal * b.toNat))).complete (overflowFlags (s.accVal * b.toNat))) := rfl

/-- Settles O27: a write of ACC followed by completing keeps the rest, ACC is the narrowed product, and of the flags of
the product only V can be 1. -/
theorem mulResult : Obligations.MulResult := by
  intro b s
  refine ⟨_, exec_mul b s, completed_writeAcc_complete _ _ _, keepsDecimal_writeAcc_complete _ _ _, ?accVal,
    fun i => ?flags, rfl, rfl⟩
  case accVal => rw [accVal_writeAcc_complete, BitVec.toNat_ofNat]
  case flags => rw [State.complete_flags, overflowFlags_getLsbD, decide_eq_true_iff]

end Sys2Proof.Machine

/-! PROOFS. DIV and MOD (spec/43_divide_modulo.md R100 to R104): the two arms of each command, what the completing arm
leaves in the registers, and the identity that fixes quotient and remainder. -/

namespace Sys2Proof.Machine

open Sys2Proof

/-! ### The zero test (R103, R104) -/

/-- The zero test on the operand's value is one on its pattern. -/
theorem operandVal_eq_zero_iff (b : Word) : operandVal b = 0 ↔ b = 0#64 :=
  BitVec.toNat_inj (y := 0#64)

theorem exec_div_zero (s : State) : exec (.div 0#64) s = .next (s.raise .divisionByZero) := rfl

theorem exec_mod_zero (s : State) : exec (.mod 0#64) s = .next (s.raise .divisionByZero) := rfl

/-! ### A result that fits 64 bits -/

/-- Write the number `v` to ACC and complete without flags: the completing arm of DIV and of MOD. -/
def State.finishPlain (s : State) (v : Nat) : State := (s.writeAcc (BitVec.ofNat 64 v)).complete noFlags

/-- A result below 2^64 in one lemma: ACC is the number itself, FLAGS is 0, and the rest is kept. -/
theorem State.finishPlain_spec (s : State) {v : Nat} (h : v < 2 ^ 64) :
    Completed s (s.finishPlain v) ∧ KeepsDecimal s (s.finishPlain v) ∧ (s.finishPlain v).accVal = v ∧
      (s.finishPlain v).flags = 0#6 := by
  refine ⟨completed_writeAcc_complete _ _ _, keepsDecimal_writeAcc_complete _ _ _, ?accVal, ?flags⟩
  case accVal => rw [State.finishPlain, accVal_writeAcc_complete, BitVec.toNat_ofNat, Nat.mod_eq_of_lt h]
  case flags => rw [State.finishPlain, State.complete_flags, noFlags_eq]

theorem exec_div_of_ne_zero {b : Word} (h : b ≠ 0#64) (s : State) :
    exec (.div b) s = .next (s.finishPlain (s.accVal / b.toNat)) :=
  if_neg (mt (operandVal_eq_zero_iff b).1 h)

theorem exec_mod_of_ne_zero {b : Word} (h : b ≠ 0#64) (s : State) :
    exec (.mod b) s = .next (s.finishPlain (s.accVal % b.toNat)) :=
  if_neg (mt (operandVal_eq_zero_iff b).1 h)

/-! Quotient and remainder are at most the dividend, so ACC holds them without loss. -/

theorem State.accVal_div_lt (s : State) (n : Nat) : s.accVal / n < 2 ^ 64 :=
  (Nat.div_le_self _ _).trans_lt s.accVal_lt

theorem State.accVal_mod_lt (s : State) (n : Nat) : s.accVal % n < 2 ^ 64 :=
  (Nat.mod_le _ _).trans_lt s.accVal_lt

/-! ### The obligations -/

/-- Settles O28: a divisor other than 0 takes the completing arm with the quotient, which fits ACC; 0 raises the
fault. -/
theorem divResult : Obligations.DivResult := by
  intro b s
  refine ⟨fun h => ?completes, fun h => ?faults, rfl, rfl⟩
  case completes => exact ⟨_, exec_div_of_ne_zero h s, s.finishPlain_spec (s.accVal_div_lt _)⟩
  case faults =>
    subst h
    exact ⟨_, exec_div_zero s, faulted_raise s _⟩

/-- Settles O29: a divisor other than 0 takes the completing arm with the remainder, which fits ACC; 0 raises the
fault. -/
theorem modResult : Obligations.ModResult := by
  intro b s
  refine ⟨fun h => ?completes, fun h => ?faults, rfl, rfl⟩
  case completes => exact ⟨_, exec_mod_of_ne_zero h s, s.finishPlain_spec (s.accVal_mod_lt _)⟩
  case faults =>
    subst h
    exact ⟨_, exec_mod_zero s, faulted_raise s _⟩

/-- Settles O42: any `q` and `r` of the identity are the quotient and the remainder (`Nat.div_mod_unique`), which are what
DIV and MOD leave in ACC. -/
theorem divisionFixedByIdentity : Obligations.DivisionFixedByIdentity := by
  intro b s q r hb identity small
  obtain ⟨quotient, remainder⟩ : s.accVal / b.toNat = q ∧ s.accVal % b.toNat = r :=
    (Nat.div_mod_unique (Nat.zero_lt_of_lt small)).2 ⟨by rw [identity, Nat.add_comm, Nat.mul_comm], small⟩
  obtain ⟨t, ht, -, -, tval, tflags⟩ := (divResult b s).1 hb
  obtain ⟨u, hu, -, -, uval, uflags⟩ := (modResult b s).1 hb
  exact ⟨t, u, ht, hu, tval.trans quotient, uval.trans remainder, tflags, uflags⟩

end Sys2Proof.Machine

/-! PROOFS. ASL, LSL, ASR and LSR (spec/44_shift.md R114, R117 to R120): the state that a shift leaves, said once for the
three ranges of the amount, and the four commands through it. -/

namespace Sys2Proof.Machine

open Sys2Proof

/-! ### The shifters on the magnitude, with 0 where the amount wipes -/

theorem shiftLeft_accPat_toNat (amount : Option Nat) (s : State) :
    (shiftLeft amount s.accPat).toNat = amount.elim 0 fun e => s.accVal * 2 ^ e % 2 ^ 64 := by
  rw [shiftLeft_toNat, s.accPat_toNat]
  cases amount <;> rfl

theorem shiftRight_accPat_toNat (amount : Option Nat) (s : State) :
    (shiftRight amount s.accPat).toNat = amount.elim 0 fun e => s.accVal / 2 ^ e := by
  rw [shiftRight_toNat, s.accPat_toNat]
  cases amount <;> rfl

/-! ### A shift by an amount of R114 -/

/-- Complete with `f` of the effective amount of `n` in ACC, or with 0 when the amount wipes: what every shift does. -/
def State.finishShift (s : State) (n : Word) (f : Nat → Nat) : State :=
  s.finishPlain ((shiftAmount Config.shiftOverwidth n).elim 0 f)

/-- The result of a shift in the three ranges of R114. -/
theorem shiftAmount_elim_spec (p : ShiftOverwidth) (n : Word) (f : Nat → Nat) :
    (n.toNat < 64 → (shiftAmount p n).elim 0 f = f n.toNat) ∧
      (64 ≤ n.toNat → n.toNat < 2 ^ 63 → (shiftAmount p n).elim 0 f = if p = .zero then 0 else f (n.toNat % 64)) ∧
      (2 ^ 63 ≤ n.toNat → (shiftAmount p n).elim 0 f = 0) := by
  obtain ⟨wiped, overwide, effective⟩ := shiftAmount_spec p n
  refine ⟨fun h => ?below64, fun h h' => ?between, fun h => ?wipes⟩
  case below64 => rw [effective h, Option.elim_some]
  case between => rw [overwide h h', apply_ite (Option.elim · 0 f), Option.elim_none, Option.elim_some]
  case wipes => rw [wiped h, Option.elim_none]

/-- A shift whose result fits 64 bits in one lemma: ACC by the range of the amount, FLAGS 0, and the rest is kept. -/
theorem State.finishShift_spec (s : State) (n : Word) {f : Nat → Nat} (fits : ∀ e, f e < 2 ^ 64) :
    Completed s (s.finishShift n f) ∧ KeepsDecimal s (s.finishShift n f) ∧ (s.finishShift n f).flags = 0#6 ∧
      (n.toNat < 64 → (s.finishShift n f).accVal = f n.toNat) ∧
      (64 ≤ n.toNat → n.toNat < 2 ^ 63 →
        (s.finishShift n f).accVal = if Config.shiftOverwidth = .zero then 0 else f (n.toNat % 64)) ∧
      (2 ^ 63 ≤ n.toNat → (s.finishShift n f).accVal = 0) := by
  have bound : (shiftAmount Config.shiftOverwidth n).elim 0 f < 2 ^ 64 := by
    cases shiftAmount Config.shiftOverwidth n with
    | none => exact Nat.two_pow_pos 64
    | some e => exact fits e
  obtain ⟨completed, decimal, value, flags⟩ := s.finishPlain_spec bound
  rw [State.finishShift, value]
  exact ⟨completed, decimal, flags, shiftAmount_elim_spec _ n f⟩

/-! ### The four commands through it -/

/-- A pattern written to ACC is its number written to ACC. -/
theorem State.finishPlain_toNat (s : State) (v : Word) : s.finishPlain v.toNat = (s.writeAcc v).complete noFlags := by
  rw [State.finishPlain, BitVec.ofNat_toNat, BitVec.setWidth_eq]

theorem exec_asl (n : Word) (s : State) :
    exec (.asl n) s = .next (s.finishShift n fun e => s.accVal * 2 ^ e % 2 ^ 64) := by
  rw [State.finishShift, ← shiftLeft_accPat_toNat, State.finishPlain_toNat]
  rfl

theorem exec_asr (n : Word) (s : State) : exec (.asr n) s = .next (s.finishShift n fun e => s.accVal / 2 ^ e) := by
  rw [State.finishShift, ← shiftRight_accPat_toNat, State.finishPlain_toNat]
  rfl

/-- LSL is ASL on every state and for every amount (R118). -/
theorem exec_lsl_eq_asl (n : Word) (s : State) : exec (.lsl n) s = exec (.asl n) s := rfl

/-- LSR is ASR on every state and for every amount: a UInt64 has no sign to extend (R119, R120). -/
theorem exec_lsr_eq_asr (n : Word) (s : State) : exec (.lsr n) s = exec (.asr n) s := rfl

/-! ### The obligations -/

/-- Settles O32: ASL is the shared shift with the product narrowed to 64 bits, and LSL is ASL. -/
theorem leftShiftResult : Obligations.LeftShiftResult := by
  intro n s
  obtain ⟨completed, decimal, flags, below64, between, wipes⟩ :=
    s.finishShift_spec n (f := fun e => s.accVal * 2 ^ e % 2 ^ 64) fun _ => Nat.mod_lt _ (Nat.two_pow_pos 64)
  exact ⟨_, exec_asl n s, (exec_lsl_eq_asl n s).trans (exec_asl n s), completed, decimal, flags, below64, between,
    wipes, rfl, rfl, rfl, rfl⟩

/-- Settles O33: ASR is the shared shift with the quotient, which is at most ACC and so fits, and LSR is ASR. -/
theorem rightShiftResult : Obligations.RightShiftResult := by
  intro n s
  obtain ⟨completed, decimal, flags, below64, between, wipes⟩ :=
    s.finishShift_spec n (f := fun e => s.accVal / 2 ^ e) fun _ => s.accVal_div_lt _
  exact ⟨_, exec_asr n s, (exec_lsr_eq_asr n s).trans (exec_asr n s), completed, decimal, flags, below64, between,
    wipes, rfl, rfl, rfl, rfl⟩

end Sys2Proof.Machine

/-! PROOFS. AND, OR, XOR and NOT (spec/45_bitwise.md R126 to R129): each acts on the pair as its operation on the
pattern, so each writes that pattern to ACC. -/

namespace Sys2Proof

/-! ### The pair of a bitwise result is the result on each part -/

theorem Split.ofWord_pat_and (p : Split) (w : Word) :
    Split.ofWord (p.pat &&& w) = ⟨p.high &&& (Split.ofWord w).high, p.low &&& (Split.ofWord w).low⟩ := by
  conv_rhs => rw [← p.ofWord_pat]
  exact congr (congrArg Split.mk BitVec.extractLsb'_and) BitVec.extractLsb'_and

theorem Split.ofWord_pat_or (p : Split) (w : Word) :
    Split.ofWord (p.pat ||| w) = ⟨p.high ||| (Split.ofWord w).high, p.low ||| (Split.ofWord w).low⟩ := by
  conv_rhs => rw [← p.ofWord_pat]
  exact congr (congrArg Split.mk BitVec.extractLsb'_or) BitVec.extractLsb'_or

theorem Split.ofWord_pat_xor (p : Split) (w : Word) :
    Split.ofWord (p.pat ^^^ w) = ⟨p.high ^^^ (Split.ofWord w).high, p.low ^^^ (Split.ofWord w).low⟩ := by
  conv_rhs => rw [← p.ofWord_pat]
  exact congr (congrArg Split.mk BitVec.extractLsb'_xor) BitVec.extractLsb'_xor

/-- A complement is an XOR with all ones, and both parts of all ones are all ones. -/
theorem Split.ofWord_pat_not (p : Split) : Split.ofWord (~~~ p.pat) = ⟨~~~ p.high, ~~~ p.low⟩ := by
  have ones : Split.ofWord (BitVec.allOnes 64) = ⟨BitVec.allOnes 1, BitVec.allOnes 63⟩ := by decide
  rw [← BitVec.xor_allOnes, Split.ofWord_pat_xor, ones, BitVec.xor_allOnes, BitVec.xor_allOnes]

end Sys2Proof

namespace Sys2Proof.Machine

open Sys2Proof

/-! ### The four commands on the pattern -/

/-- AND writes `P & Q` to ACC (R126). -/
theorem exec_and (b : Word) (s : State) :
    exec (.and b) s = .next ((s.writeAcc (s.accPat &&& b)).complete noFlags) := by
  rw [State.writeAcc, State.accPat, Split.ofWord_pat_and]
  rfl

/-- OR writes `P | Q` to ACC (R127). -/
theorem exec_or (b : Word) (s : State) :
    exec (.or b) s = .next ((s.writeAcc (s.accPat ||| b)).complete noFlags) := by
  rw [State.writeAcc, State.accPat, Split.ofWord_pat_or]
  rfl

/-- XOR writes `P ^ Q` to ACC: the parity of the two high bits is their XOR (R128). -/
theorem exec_xor (b : Word) (s : State) :
    exec (.xor b) s = .next ((s.writeAcc (s.accPat ^^^ b)).complete noFlags) := by
  rw [State.writeAcc, State.accPat, Split.ofWord_pat_xor]
  rfl

/-- NOT writes `~P` to ACC: on one bit, `1 - H` is the complement (R129). -/
theorem exec_not (s : State) : exec .not s = .next ((s.writeAcc (~~~ s.accPat)).complete noFlags) := by
  rw [State.writeAcc, State.accPat, Split.ofWord_pat_not, ← BitVec.allOnes_sub_eq_not s.acc.high]
  rfl

/-! ### What a written pattern leaves -/

/-- A pattern written to ACC without flags, in one lemma: both parts of ACC are those of its pair, the pattern is the
one written, FLAGS is 0, and the rest is kept (R125). -/
theorem writeAcc_complete_noFlags_spec (s : State) {v : Word} {p : Split} (pair : Split.ofWord v = p) :
    Completed s ((s.writeAcc v).complete noFlags) ∧ KeepsDecimal s ((s.writeAcc v).complete noFlags) ∧
      ((s.writeAcc v).complete noFlags).flags = 0#6 ∧ ((s.writeAcc v).complete noFlags).accL = p.low ∧
      ((s.writeAcc v).complete noFlags).accH = p.high ∧ ((s.writeAcc v).complete noFlags).accPat = v := by
  refine ⟨completed_writeAcc_complete _ _ _, keepsDecimal_writeAcc_complete _ _ _, ?flags, ?accL, ?accH,
    accPat_writeAcc_complete _ _ _⟩
  case flags => rw [State.complete_flags, noFlags_eq]
  case accL => rw [← pair, State.complete_accL, State.writeAcc_accL, Split.ofWord]
  case accH => rw [← pair, State.complete_accH, State.writeAcc_accH, Split.ofWord]

/-! ### The obligations -/

/-- Settles O34: AND writes the pattern `P & Q`, whose pair is the AND of both parts. -/
theorem andResult : Obligations.AndResult := by
  intro b s
  obtain ⟨completed, decimal, flags, low, high, pattern⟩ := writeAcc_complete_noFlags_spec s (s.acc.ofWord_pat_and b)
  exact ⟨_, exec_and b s, completed, decimal, flags, low, high, pattern, rfl, rfl⟩

/-- Settles O35: OR writes the pattern `P | Q`, whose pair is the OR of both parts. -/
theorem orResult : Obligations.OrResult := by
  intro b s
  obtain ⟨completed, decimal, flags, low, high, pattern⟩ := writeAcc_complete_noFlags_spec s (s.acc.ofWord_pat_or b)
  exact ⟨_, exec_or b s, completed, decimal, flags, low, high, pattern, rfl, rfl⟩

/-- Settles O36: XOR writes the pattern `P ^ Q`, whose pair is the XOR of both parts, on every input alike. -/
theorem xorResult : Obligations.XorResult := by
  intro b s
  obtain ⟨completed, decimal, flags, low, high, pattern⟩ := writeAcc_complete_noFlags_spec s (s.acc.ofWord_pat_xor b)
  exact ⟨_, exec_xor b s, completed, decimal, flags, low, high, pattern, rfl, rfl⟩

/-- Settles O37: NOT writes the pattern `~P`, whose pair is the complement of both parts; the complement of `w` bits
read as a number is `2^w - 1` minus that number. -/
theorem notResult : Obligations.NotResult := by
  intro s
  obtain ⟨completed, decimal, flags, low, high, pattern⟩ := writeAcc_complete_noFlags_spec s s.acc.ofWord_pat_not
  refine ⟨_, exec_not s, completed, decimal, flags, ?low, ?high, pattern, ?magnitude, rfl, rfl⟩
  case low => exact (congrArg BitVec.toNat low).trans BitVec.toNat_not
  case high => exact (congrArg BitVec.toNat high).trans BitVec.toNat_not
  case magnitude => rw [accVal_writeAcc_complete, BitVec.toNat_not, s.accPat_toNat]

end Sys2Proof.Machine

/-! PROOFS. CMP (spec/46_compare.md R135 to R137): the order on pairs as propositions, the six fields of its FLAGS, and
trichotomy by the order of the magnitudes. -/

namespace Sys2Proof

/-! ### The order of R135 on pairs -/

theorem Split.eq_iff_parts (a b : Split) : a.eq b = true ↔ a.high = b.high ∧ a.low = b.low := by
  rw [Split.eq, Bool.and_eq_true, beq_iff_eq, beq_iff_eq]

theorem Split.lt_iff_parts (a b : Split) :
    a.lt b = true ↔ (a.high = 0#1 ∧ b.high = 1#1) ∨ (a.high = b.high ∧ a.low.toNat < b.low.toNat) := by
  simp only [Split.lt, Bool.or_eq_true, Bool.and_eq_true, beq_iff_eq, decide_eq_true_iff]

theorem Split.gt_iff_parts (a b : Split) :
    a.gt b = true ↔ (a.high = 1#1 ∧ b.high = 0#1) ∨ (a.high = b.high ∧ b.low.toNat < a.low.toNat) := by
  simp only [Split.gt, Bool.or_eq_true, Bool.and_eq_true, beq_iff_eq, decide_eq_true_iff]

end Sys2Proof

namespace Sys2Proof.Machine

open Sys2Proof

/-! ### FLAGS of CMP -/

/-- The six fields of CMP's FLAGS: C, B and V are 0, the other three are the order of R135 (R136). -/
theorem compareFlags_fields (p q : Split) :
    flagC (compareFlags p q) = false ∧ flagB (compareFlags p q) = false ∧ flagV (compareFlags p q) = false ∧
      flagEQ (compareFlags p q) = p.eq q ∧ flagLT (compareFlags p q) = p.lt q ∧ flagGT (compareFlags p q) = p.gt q :=
  ⟨flagC_flagsWord .., flagB_flagsWord .., flagV_flagsWord .., flagEQ_flagsWord .., flagLT_flagsWord ..,
    flagGT_flagsWord ..⟩

/-- CMP writes FLAGS and nothing else (R136). -/
theorem exec_cmp (b : Word) (s : State) :
    exec (.cmp b) s = .next (s.complete (compareFlags s.acc (operandPair b))) := rfl

/-- The flags of any completed CMP are the three comparisons of the magnitudes (R136). -/
theorem flags_of_exec_cmp {b : Word} {s t : State} (h : exec (.cmp b) s = .next t) :
    (flagEQ t.flags = true ↔ s.accVal = b.toNat) ∧ (flagLT t.flags = true ↔ s.accVal < b.toNat) ∧
      (flagGT t.flags = true ↔ b.toNat < s.accVal) := by
  obtain ⟨t', ht', eq, gt, lt⟩ := exec_cmp_flags b s
  cases ht'.symm.trans h
  exact ⟨eq, lt, gt⟩

/-- The value of ACC after a write of a pattern is the pattern as a number (R10). -/
theorem State.accVal_writeAcc (s : State) (v : Word) : (s.writeAcc v).accVal = v.toNat := by
  rw [State.accVal, State.acc_writeAcc, Split.val_ofWord]

/-! ### The obligations -/

/-- Settles O38: the fields of `compareFlags` are the order of R135 on the pair of ACC and that of the operand, and
completing keeps the rest. -/
theorem cmpResult : Obligations.CmpResult := by
  intro b s
  obtain ⟨carry, borrow, overflow, eq, lt, gt⟩ := compareFlags_fields s.acc (operandPair b)
  refine ⟨_, exec_cmp b s, completed_complete _ rfl, ⟨State.complete_accH _ _, State.complete_accL _ _⟩,
    keepsDecimal_complete _ ⟨rfl, rfl⟩, ?_⟩
  rw [State.complete_flags]
  exact ⟨⟨carry, borrow, overflow⟩, (Bool.eq_iff_iff.1 eq).trans (Split.eq_iff_parts _ _),
    (Bool.eq_iff_iff.1 lt).trans (Split.lt_iff_parts _ _), (Bool.eq_iff_iff.1 gt).trans (Split.gt_iff_parts _ _), rfl, rfl⟩

/-- Settles O41: the flags of both commands compare the same two magnitudes, the second in exchanged roles, so the claim
is the trichotomy of the natural numbers. -/
theorem cmpTrichotomy : Obligations.CmpTrichotomy := by
  intro b s t u ht hu
  obtain ⟨teq, tlt, tgt⟩ := flags_of_exec_cmp ht
  obtain ⟨ueq, ult, ugt⟩ := flags_of_exec_cmp hu
  rw [s.accVal_writeAcc, s.accPat_toNat] at ueq ult ugt
  rw [teq, tlt, tgt]
  refine ⟨by omega, by omega, by omega, by omega, Bool.eq_iff_iff.2 ?eq, Bool.eq_iff_iff.2 ?lt, Bool.eq_iff_iff.2 ?gt⟩
  case eq => exact (ueq.trans eq_comm).trans teq.symm
  case lt => exact ult.trans tgt.symm
  case gt => exact ugt.trans tlt.symm

end Sys2Proof.Machine

/-! PROOFS. TODEC (spec/47_decimal.md R141, R144): a numeral has zeros from its length on and no leading zero, and what
the command leaves in the registers. -/

namespace Sys2Proof.Machine

open Sys2Proof

/-! ### The digits at and above the length of a numeral (R140) -/

theorem digit_eq_zero_of_lt_pow {a i : Nat} (h : a < 10 ^ i) : a / 10 ^ i % 10 = 0 := by
  rw [Nat.div_eq_of_lt h, Nat.zero_mod]

/-- A power of ten with no more zeros than the numeral has places below its top one is at most the number. -/
theorem pow_le_of_lt_decimalLength {a n : Nat} (bound : a < 10 ^ 20) (ha : a ≠ 0) (h : n < decimalLength a) :
    10 ^ n ≤ a := by
  obtain ⟨-, -, -, least⟩ := decimalLength_spec a bound
  cases n with
  | zero => exact Nat.one_le_iff_ne_zero.2 ha
  | succ n => exact not_lt.1 fun small => h.not_ge (least (n + 1) (Nat.le_add_left 1 n) small)

/-- A numeral has no leading zero: at its top place the quotient is from 1 to 9. -/
theorem top_digit_ne_zero {a : Nat} (bound : a < 10 ^ 20) (ha : a ≠ 0) :
    a / 10 ^ (decimalLength a - 1) % 10 ≠ 0 := by
  obtain ⟨pos, -, fits, -⟩ := decimalLength_spec a bound
  have reached : 10 ^ (decimalLength a - 1) ≤ a :=
    pow_le_of_lt_decimalLength bound ha (Nat.sub_one_lt_of_lt pos)
  have one_le : 1 ≤ a / 10 ^ (decimalLength a - 1) := Nat.div_pos reached (Nat.pow_pos (by decide))
  have lt_ten : a / 10 ^ (decimalLength a - 1) < 10 :=
    Nat.div_lt_of_lt_mul (by rwa [← Nat.pow_succ, Nat.succ_eq_add_one, Nat.sub_add_cancel pos])
  rw [Nat.mod_eq_of_lt lt_ten]
  exact Nat.one_le_iff_ne_zero.1 one_le

/-! ### What TODEC leaves -/

/-- Write the numeral of ACC to DEC and DLEN and complete without flags: what TODEC does. -/
def State.finishTodec (s : State) : State :=
  (s.writeDecimal (decimalWord (decimalDigits s.accVal)) (BitVec.ofNat 5 (decimalLength s.accVal))).complete noFlags

theorem exec_todec (s : State) : exec .todec s = .next s.finishTodec := rfl

@[simp] theorem State.finishTodec_dec (s : State) : s.finishTodec.dec = decimalWord (decimalDigits s.accVal) := by
  rw [State.finishTodec, State.complete_dec, State.writeDecimal_dec]

@[simp] theorem State.finishTodec_dlen (s : State) : s.finishTodec.dlen = BitVec.ofNat 5 (decimalLength s.accVal) := by
  rw [State.finishTodec, State.complete_dlen, State.writeDecimal_dlen]

/-- A value of 64 bits has at most twenty digits. -/
theorem State.accVal_lt_ten_pow (s : State) : s.accVal < 10 ^ 20 := s.accVal_lt.trans (by norm_num)

theorem State.finishTodec_decDigit (s : State) {i : Nat} (h : i < 20) :
    (decDigit s.finishTodec.dec i).toNat = s.accVal / 10 ^ i % 10 := by
  rw [State.finishTodec_dec, decDigit_decimalWord _ i h]

/-- The length, at most 20, fits the five bits of DLEN (R27). -/
theorem State.finishTodec_dlen_toNat (s : State) : s.finishTodec.dlen.toNat = decimalLength s.accVal := by
  obtain ⟨-, short, -, -⟩ := decimalLength_spec s.accVal s.accVal_lt_ten_pow
  rw [State.finishTodec_dlen, BitVec.toNat_ofNat, Nat.mod_eq_of_lt (short.trans_lt (by decide))]

/-- What TODEC does beside DEC and DLEN: it completes, keeps ACC and clears FLAGS. -/
theorem State.finishTodec_frame (s : State) :
    Completed s s.finishTodec ∧ KeepsAcc s s.finishTodec ∧ s.finishTodec.flags = 0#6 := by
  refine ⟨completed_complete _ (State.writeDecimal_inputs _ _ _), ⟨?accH, ?accL⟩, ?flags⟩
  case accH => rw [State.finishTodec, State.complete_accH, State.writeDecimal_accH]
  case accL => rw [State.finishTodec, State.complete_accL, State.writeDecimal_accL]
  case flags => rw [State.finishTodec, State.complete_flags, noFlags_eq]

/-! ### The obligations -/

/-- Settles O39: DEC and DLEN are the digits and the length of ACC, whose value is below 10^20, and the rest of the claim
is about the numeral of such a number. -/
theorem todecResult : Obligations.TodecResult := by
  intro s
  obtain ⟨completed, acc, flags⟩ := s.finishTodec_frame
  have bound := s.accVal_lt_ten_pow
  obtain ⟨pos, short, fits, least⟩ := decimalLength_spec s.accVal bound
  refine ⟨_, exec_todec s, completed, acc, flags, fun i hi => s.finishTodec_decDigit hi, ?_⟩
  rw [s.finishTodec_dlen_toNat]
  refine ⟨⟨pos, short, fits, least⟩, fun i hi above => ?zeros, fun nonzero top => ?noLeadingZero, rfl, rfl⟩
  case zeros =>
    apply BitVec.eq_of_toNat_eq
    rw [s.finishTodec_decDigit hi,
      digit_eq_zero_of_lt_pow (fits.trans_le (Nat.pow_le_pow_right (by decide) above)), BitVec.toNat_zero]
  case noLeadingZero =>
    apply top_digit_ne_zero bound nonzero
    rw [← s.finishTodec_decDigit (by omega), top, BitVec.toNat_zero]

/-- Settles O40: DEC and DLEN are functions of the value of ACC, which are evaluated at the three values. -/
theorem todecBoundaries : Obligations.TodecBoundaries := by
  intro s t h
  cases (exec_todec s).symm.trans h
  rw [decO, dlenO, s.finishTodec_dec, s.finishTodec_dlen]
  refine ⟨fun value => ?signedMax, fun value => ?signBit, fun value => ?unsignedMax⟩ <;> rw [value]
  case signedMax => decide
  case signBit => decide
  case unsignedMax => decide

end Sys2Proof.Machine

/-! PROOFS. The two faults (spec/60_exceptions.md R153, R155, R156): the response as a function of the command word, the
words that give each fault, the cause code, and a fault as a `raise` from the state that accepted the command. -/

namespace Sys2Proof

/-- A word decodes to a command with an operand exactly when it has the command's opcode and operand field. -/
theorem decode_eq_ok_iff_of_operand {i : Instr} {b : Word} (h : i.operand = some b) (w : CommandWord) :
    decode w = .ok i ↔ opcField w = opcodeOf i ∧ opdField w = b := by
  rw [decode_eq_ok_iff, h, Option.some_inj, eq_comm (a := b), or_iff_right (Option.some_ne_none b)]

end Sys2Proof

namespace Sys2Proof.Machine

open Sys2Proof

/-! ### The response to a command word, whatever the state -/

/-- The response to a command: DIV and MOD by 0 fault, everything else completes (R153). -/
def commandResponse : Instr → Response
  | .div b | .mod b => if b = 0#64 then .faulted .divisionByZero else .completed
  | _ => .completed

/-- The response to a command word: that of its command, and IllegalCommand where there is none (R153, R154). -/
def wordResponse (w : CommandWord) : Response :=
  match decode w with
  | .ok i => commandResponse i
  | .error _ => .faulted .illegalCommand

/-- The zero test that DIV and MOD begin with decides their response (R103, R104). -/
theorem rsp_of_zeroTest {b : Word} {s u t : State} {f : BitVec 6}
    (h : (if operandVal b = 0 then .next (s.raise .divisionByZero) else .next (u.complete f)) =
      (.next t : Host.Outcome State Fault Refusal)) :
    t.rsp = some (if b = 0#64 then .faulted .divisionByZero else .completed) := by
  by_cases zero : operandVal b = 0
  · rw [if_pos zero] at h
    rw [if_pos ((operandVal_eq_zero_iff b).1 zero)]
    cases h
    exact State.raise_rsp s _
  · rw [if_neg zero] at h
    rw [if_neg (mt (operandVal_eq_zero_iff b).2 zero)]
    cases h
    exact State.complete_rsp u f

theorem rsp_of_exec {i : Instr} {s t : State} (h : exec i s = .next t) : t.rsp = some (commandResponse i) := by
  cases i with
  | div b => exact rsp_of_zeroTest h
  | mod b => exact rsp_of_zeroTest h
  | _ =>
    cases h
    exact State.complete_rsp _ _

/-- The response depends on the word alone, not on the state the core is in (R153). -/
theorem rsp_of_step_present {s t : State} {w : CommandWord} (h : step (s.present w) = .next t) :
    t.rsp = some (wordResponse w) := by
  unfold wordResponse
  cases hd : decode w with
  | ok i => exact rsp_of_exec ((step_present_of_decode_ok hd s).symm.trans h)
  | error e =>
    cases (step_present_of_decode_error hd s).symm.trans h
    exact State.takeIllegalCommand_rsp s

/-! ### The words that give each fault -/

theorem commandResponse_eq_divisionByZero_iff (i : Instr) :
    commandResponse i = .faulted .divisionByZero ↔ i = .div 0#64 ∨ i = .mod 0#64 := by
  cases i <;> simp [commandResponse]

/-- No command is illegal. -/
theorem commandResponse_ne_illegalCommand (i : Instr) : commandResponse i ≠ .faulted .illegalCommand := by
  cases i <;> simp [commandResponse, ite_eq_iff]

theorem wordResponse_eq_divisionByZero_iff (w : CommandWord) :
    wordResponse w = .faulted .divisionByZero ↔ decode w = .ok (.div 0#64) ∨ decode w = .ok (.mod 0#64) := by
  unfold wordResponse
  cases decode w with
  | ok i => simpa using commandResponse_eq_divisionByZero_iff i
  | error e => simp

theorem wordResponse_eq_illegalCommand_iff (w : CommandWord) :
    wordResponse w = .faulted .illegalCommand ↔ ∀ i, decode w ≠ .ok i := by
  unfold wordResponse
  cases decode w with
  | ok i => simpa using commandResponse_ne_illegalCommand i
  | error e => simp

/-! ### The cause code -/

/-- The cause code, 0 for no fault, tells the three responses apart (R155). -/
theorem causeField_injective : Function.Injective causeField := by
  intro p q h
  match p, q with
  | .completed, .completed => rfl
  | .faulted .divisionByZero, .faulted .divisionByZero => rfl
  | .faulted .illegalCommand, .faulted .illegalCommand => rfl

theorem rspCauseO_eq_iff (t : State) (r : Response) : rspCauseO t = some (causeField r) ↔ t.rsp = some r :=
  (Option.map_injective causeField_injective).eq_iff (b := some r)

/-! ### A fault keeps the 155 bits -/

theorem SameArch.trans {s u t : State} (hsu : SameArch s u) (hut : SameArch u t) : SameArch s t := by
  obtain ⟨accH, accL, flags, dec, dlen⟩ := hsu
  obtain ⟨accH', accL', flags', dec', dlen'⟩ := hut
  exact ⟨accH'.trans accH, accL'.trans accL, flags'.trans flags, dec'.trans dec, dlen'.trans dlen⟩

/-- Accepting an event changes none of the 155 bits. -/
theorem sameArch_of_nextEvent {s u : State} {e : HostEvent} (h : s.nextEvent = some (e, u)) : SameArch s u := by
  obtain ⟨-, accH, accL, flags, dec, dlen, -⟩ := nextEvent_spec h
  exact ⟨accH, accL, flags, dec, dlen⟩

theorem sameArch_raise (s : State) (c : Cause) : SameArch s (s.raise c) := by
  obtain ⟨-, -, same⟩ := faulted_raise s c
  exact same

theorem eq_raise_of_exec_faulted {i : Instr} {s t : State} {c : Cause} (h : exec i s = .next t)
    (hc : t.rsp = some (.faulted c)) : t = s.raise c := by
  rcases exec_complete_or_raise i s with ⟨u, completes⟩ | raises
  · cases completes.symm.trans h
    simp at hc
  · cases raises.symm.trans h
    cases hc
    rfl

/-- A step that ends with a fault took the host's next event and raised that fault from the state it was accepted in:
idling and the two resets give no response. -/
theorem eq_raise_of_step_faulted {s t : State} {c : Cause} (h : step s = .next t) (hc : t.rsp = some (.faulted c)) :
    ∃ e u, s.nextEvent = some (e, u) ∧ t = u.raise c := by
  rcases step_cases h with ⟨-, rfl⟩ | ⟨w, u, i, event, -, run⟩ | ⟨w, u, e, event, -, rfl⟩ | ⟨u, -, rfl⟩ | ⟨w, u, -, rfl⟩
  · simp at hc
  · exact ⟨_, u, event, eq_raise_of_exec_faulted run hc⟩
  · cases hc
    exact ⟨_, u, event, rfl⟩
  · simp at hc
  · simp at hc

/-! ### The obligations -/

/-- Settles O12: the response is `wordResponse w`, so each fault is a condition on what the word decodes to, and the cause
code tells the responses apart. -/
theorem exactlyTwoFaults : Obligations.ExactlyTwoFaults := by
  intro s t w h
  have rsp := rsp_of_step_present h
  refine ⟨?divisionByZero, ?illegalCommand, (rspCauseO_eq_iff t _).symm, (rspCauseO_eq_iff t _).symm⟩
  case divisionByZero =>
    rw [rsp, Option.some_inj, wordResponse_eq_divisionByZero_iff, decode_eq_ok_iff_of_operand rfl,
      decode_eq_ok_iff_of_operand rfl, ← or_and_right]
    rfl
  case illegalCommand => rw [rsp, Option.some_inj, wordResponse_eq_illegalCommand_iff]

/-- Settles O13: the step raised the fault from the state that accepted the command, and neither accepting an event nor
raising a fault changes any of the 155 bits. -/
theorem faultChangesNothing : Obligations.FaultChangesNothing := by
  intro s t c h hc
  obtain ⟨e, u, event, rfl⟩ := eq_raise_of_step_faulted h hc
  exact (sameArch_of_nextEvent event).trans (sameArch_raise u c)

end Sys2Proof.Machine

/-! PROOFS. The encoding in both directions (spec/30_encoding.md R50 to R53, R56) and the words that the assembler emits
(R60, R61). -/

namespace Sys2Proof

/-! ### Encoding and decoding are inverse -/

/-- What a command carries is nothing, or what its word has in the operand field. -/
theorem Instr.operand_eq_none_or_operandField (i : Instr) : i.operand = none ∨ i.operand = some (operandField i) := by
  rw [operandField]
  cases i.operand with
  | none => exact .inl rfl
  | some b => exact .inr rfl

/-- A word that decodes to a command with an operand is that command's word. -/
theorem encode_of_decode_ok {w : CommandWord} {i : Instr} (h : decode w = .ok i) (hf : i.format ≠ .N) : encode i = w := by
  obtain ⟨opc, opd⟩ := (decode_eq_ok_iff w i).1 h
  have operand : i.operand = some (opdField w) := opd.resolve_left (mt i.operand_eq_none_iff.1 hf)
  rw [encode, operandField, operand, Option.getD_some, ← opc, ← commandWord_eq]

/-- A command of format N is encoded with the operand field 0 (R53, R60). -/
theorem encode_of_formatN {i : Instr} (hf : i.format = .N) : encode i = opcodeOf i ++ 0#64 := by
  rw [encode, operandField, i.operand_eq_none_iff.2 hf, Option.getD_none]

/-- Settles O1: the word has the command's opcode, and its operand field is the operand if there is one. -/
theorem decodeEncodeRoundTrip : Obligations.DecodeEncodeRoundTrip := by
  intro i _
  rw [decode_eq_ok_iff, opcField_encode, opdField_encode]
  exact ⟨rfl, i.operand_eq_none_or_operandField⟩

/-- Settles O2: with an operand the command's two fields are those of the word, and format N has the word's opcode. -/
theorem decodedWordEncodesBack : Obligations.DecodedWordEncodesBack := by
  intro w i h
  obtain ⟨opc, -⟩ := (decode_eq_ok_iff w i).1 h
  refine ⟨i.wellFormed_true, encode_of_decode_ok h, fun hf => ?_⟩
  rw [encode_of_formatN hf, opc]

/-- Settles O6: the decoder evaluated on each of the eight words. -/
theorem sampleWordsDecode : Obligations.SampleWordsDecode := by
  unfold Obligations.SampleWordsDecode
  decide

/-! ### The word of a command as a number -/

/-- A command word as a number: the opcode times 2^64 plus the operand field (R50, R60). -/
theorem encode_toNat (i : Instr) : (encode i).toNat = (opcodeOf i).toNat * 2 ^ 64 + (operandField i).toNat := by
  have fields : (encode i).toNat = (opcodeOf i).toNat <<< 64 ||| (operandField i).toNat := BitVec.toNat_append _ _
  rw [fields, ← Nat.shiftLeft_add_eq_or_of_lt (operandField i).isLt, Nat.shiftLeft_eq]

end Sys2Proof

namespace Sys2Proof.Machine

open Sys2Proof

/-! ### The assembler -/

/-- The literal of a line does not enter its opcode. -/
theorem opcodeOf_expand (m : Mnemonic) (v : Word) : opcodeOf (expand m v) = opcodeOf (expand m 0#64) := by
  cases m <;> rfl

/-- Where a line has a literal, it is the operand field of the line's command. -/
theorem operandField_expand {m : Mnemonic} (h : m.format ≠ .N) (v : Word) : operandField (expand m v) = v := by
  cases m with
  | inc | dec | not | todec | clr | tst | max => exact absurd rfl h
  | _ => rfl

/-- The checks on the literal of a line that has one (R60). -/
theorem check_literal {m : Mnemonic} (h : m.format ≠ .N) (v : Int) :
    AsmLine.check ⟨m, some v⟩ =
      if v < 0 then .error .negativeLiteral else if 2 ^ 64 ≤ v then .error .literalOutOfRange else .ok () := by
  cases hm : m.format with
  | N => exact absurd hm h
  | V => simp only [AsmLine.check, hm]
  | S => simp only [AsmLine.check, hm]

theorem check_missingLiteral {m : Mnemonic} (h : m.format ≠ .N) :
    AsmLine.check ⟨m, none⟩ = .error .missingLiteral := by
  cases hm : m.format with
  | N => exact absurd hm h
  | V => simp only [AsmLine.check, hm]
  | S => simp only [AsmLine.check, hm]

theorem check_unexpectedLiteral {m : Mnemonic} (h : m.format = .N) (v : Int) :
    AsmLine.check ⟨m, some v⟩ = .error .unexpectedLiteral := by
  simp only [AsmLine.check, h]

/-- A line that fails a check is refused with that check's error. -/
theorem assemble_of_check_error {l : AsmLine} {e : AsmError} (h : l.check = .error e) : assemble l = .error e := by
  simp only [assemble, h]

/-- A literal of 0 to 2^64 - 1 keeps its value as a 64-bit pattern. -/
theorem ofInt_toNat_of_range {v : Int} (h0 : 0 ≤ v) (h1 : v < 2 ^ 64) : ((BitVec.ofInt 64 v).toNat : Int) = v := by
  rw [BitVec.toNat_ofInt]
  omega

/-- The word of a line with a literal in range (R60). -/
theorem assemble_literal {m : Mnemonic} (h : m.format ≠ .N) {v : Int} (h0 : 0 ≤ v) (h1 : v < 2 ^ 64) :
    ∃ w, assemble ⟨m, some v⟩ = .ok w ∧ (w.toNat : Int) = (opcodeOf (expand m 0#64)).toNat * 2 ^ 64 + v := by
  have passes : AsmLine.check ⟨m, some v⟩ = .ok () := by rw [check_literal h, if_neg (by omega), if_neg (by omega)]
  refine ⟨_, assemble_of_check passes, ?_⟩
  rw [encode_toNat, opcodeOf_expand, operandField_expand h, Option.getD_some, Nat.cast_add, ofInt_toNat_of_range h0 h1]
  norm_num

/-- The word of a command of format N has nothing below its opcode (R53, R60). -/
theorem assemble_formatN {m : Mnemonic} (h : m = .inc ∨ m = .dec ∨ m = .not ∨ m = .todec) :
    ∃ w, assemble ⟨m, none⟩ = .ok w ∧ w.toNat = (opcodeOf (expand m 0#64)).toNat * 2 ^ 64 := by
  rcases h with rfl | rfl | rfl | rfl <;> exact ⟨_, assemble_of_check rfl, encode_toNat _⟩

/-- Settles O60: the checks decide whether a line is refused, and the word of a line that passes is `encode_toNat`. -/
theorem assembledWords : Obligations.AssembledWords := by
  refine ⟨fun m v => ⟨fun h => assemble_literal h, fun h neg => ?negative, fun h big => ?outOfRange,
    fun h => assemble_of_check_error (check_missingLiteral h),
    fun h => assemble_of_check_error (check_unexpectedLiteral h v), assemble_formatN⟩, ?_, ?_, ?_⟩
  case negative => exact assemble_of_check_error (by rw [check_literal h, if_pos neg])
  case outOfRange => exact assemble_of_check_error (by rw [check_literal h, if_neg (by omega), if_pos big])
  all_goals decide

end Sys2Proof.Machine

/-! PROOFS. The step (spec/00_scope.md R11) by the host's next event, reset and faults between commands
(spec/70_reset_and_hazards.md R168 to R171, R182; spec/60_exceptions.md R157, R158), the ports (spec/20_memory.md R41) and
runs of command words (R45, R183). -/

namespace Sys2Proof.Machine

open Sys2Proof

/-! ### The step by the host's next event -/

theorem step_of_inputs_nil {s : State} (h : s.inputs = []) : step s = .next s.idle := by
  have event : s.nextEvent = none := by rw [State.nextEvent, h]
  rw [step, event]

/-- A state whose next event is a command word is the state behind that event, presented the word. -/
theorem eq_present_of_inputs {s : State} {w : CommandWord} {rest : List HostEvent} (h : s.inputs = .command w :: rest) :
    s = ({ s with inputs := rest } : State).present w := by
  rw [State.present, ← h]

theorem step_of_inputs_reset {s : State} {rest : List HostEvent} (h : s.inputs = .reset :: rest) :
    step s = .next ({ s with inputs := rest } : State).takeReset := by
  have event : s.nextEvent = some (.reset, { s with inputs := rest }) := by rw [State.nextEvent, h]
  rw [step, event]

theorem step_of_inputs_abandoned {s : State} {w : CommandWord} {rest : List HostEvent}
    (h : s.inputs = .abandoned w :: rest) : step s = .next ({ s with inputs := rest } : State).abandonCommand := by
  have event : s.nextEvent = some (.abandoned w, { s with inputs := rest }) := by rw [State.nextEvent, h]
  rw [step, event]

/-- A presented word is answered in the step that takes it, and the host's stream behind it is kept. -/
theorem step_present_answers (s : State) (w : CommandWord) :
    ∃ t, step (s.present w) = .next t ∧ t.rsp = some (wordResponse w) ∧ t.inputs = s.inputs := by
  obtain ⟨t, ht, inputs, -⟩ := step_command s w []
  exact ⟨t, ht, rsp_of_step_present ht, inputs⟩

/-- Settles O8: the event is a presented word, which is answered. -/
theorem everyCommandGetsResponse : Obligations.EveryCommandGetsResponse := by
  intro s w rest h
  obtain ⟨t, ht, rsp, inputs⟩ := step_present_answers { s with inputs := rest } w
  exact ⟨t, _, (congrArg step (eq_present_of_inputs h)).trans ht, rsp, inputs⟩

/-- Settles O7: the event is a presented word, whose step is `exec` of what it decodes to. -/
theorem stepRunsDecodedCommand : Obligations.StepRunsDecodedCommand := by
  intro s w rest i h decoded _
  exact (congrArg step (eq_present_of_inputs h)).trans (step_present_of_decode_ok decoded _)

/-- Settles O9: the step idles, which empties the response port and nothing else. -/
theorem idleCoreHoldsState : Obligations.IdleCoreHoldsState := by
  intro s h
  refine ⟨_, step_of_inputs_nil h, ?_, State.idle_rsp s, (State.idle_inputs s).trans h⟩
  exact ⟨State.idle_accH s, State.idle_accL s, State.idle_flags s, State.idle_dec s, State.idle_dlen s⟩

/-! ### Reset -/

theorem sameArch_takeReset (s : State) : SameArch State.reset s.takeReset := ⟨rfl, rfl, rfl, rfl, rfl⟩

/-- Settles O11: both events lead to the reset state; of the other events an idle step alone gives no response. -/
theorem resetFromEveryState : Obligations.ResetFromEveryState := by
  refine ⟨?resets, ?noResponse⟩
  case resets =>
    rintro s w rest (h | h)
    · exact ⟨_, step_of_inputs_reset h, sameArch_takeReset _, rfl, rfl, rfl⟩
    · exact ⟨_, step_of_inputs_abandoned h, sameArch_takeReset _, rfl, rfl, rfl⟩
  case noResponse =>
    intro s t h silent
    cases events : s.inputs with
    | nil => exact .inl rfl
    | cons e rest =>
      cases e with
      | reset => exact .inr (.inl ⟨rest, rfl⟩)
      | abandoned w => exact .inr (.inr ⟨w, rest, rfl⟩)
      | command w =>
        rw [eq_present_of_inputs events] at h
        rw [rsp_of_step_present h] at silent
        cases silent

/-! ### A fault leaves no trace -/

/-- No command reads the response of the command before it. -/
theorem exec_raise (i : Instr) (s : State) (c : Cause) : exec i (s.raise c) = exec i s := by
  cases s with
  | mk h l f d n r ins => cases i <;> rfl

theorem step_present_raise (s : State) (c : Cause) (v : CommandWord) :
    step ((s.raise c).present v) = step (s.present v) := by
  cases decoded : decode v with
  | ok i => rw [step_present_of_decode_ok decoded, step_present_of_decode_ok decoded, exec_raise]
  | error e =>
    rw [step_present_of_decode_error decoded, step_present_of_decode_error decoded]
    rfl

/-- Settles O14: the fault left the state with another response, which no step reads. -/
theorem faultLeavesNoTrace : Obligations.FaultLeavesNoTrace := by
  intro s t w v c h hc
  obtain ⟨e, u, event, rfl⟩ := eq_raise_of_step_faulted h hc
  cases (s.nextEvent_present w).symm.trans event
  exact step_present_raise s c v

/-! ### The ports -/

/-- A bit of a digit is the bit of DEC at its position (R26). -/
theorem decDigit_getLsbD (d : BitVec 80) (i : Nat) {j : Nat} (h : j < 4) :
    (decDigit d i).getLsbD j = d.getLsbD (4 * i + j) := by
  rw [decDigit, BitVec.getLsbD_extractLsb', decide_eq_true h, Bool.true_and]

/-- Settles O16: `acc_o` is the pattern of ACC, whose number is the magnitude and whose bits are those of the pair. -/
theorem portsShowRegisters : Obligations.PortsShowRegisters := by
  intro s
  refine ⟨?number, ?top, fun i hi => ?low, fun i j _ hj => (decDigit_getLsbD s.dec i hj).symm, rfl, rfl⟩
  case number =>
    have value : s.accVal = s.accL.toNat + 2 ^ 63 * s.accH.toNat := rfl
    rw [accO, s.accPat_toNat, value, Nat.mul_comm]
  case top => exact s.acc.pat_getLsbD 63
  case low => exact (s.acc.pat_getLsbD i).trans (if_pos hi)

/-! ### Runs -/

/-- A run over `w :: ws` by its first word: the step answers the word, and the run goes on from where it leads. -/
theorem runWords_cons {s t : State} {w : CommandWord} (h : step (s.present w) = .next t) (ws : List CommandWord) :
    runWords (w :: ws) s = (runWords ws t).map fun x => (x.1, wordResponse w :: x.2) := by
  simp only [runWords, h, rsp_of_step_present h]

/-- The run of the core over the words placed in the host's stream, and the response held at its end: the last of the
run, or the one held before a run over no word. -/
theorem core_run_of_runWords (ws : List CommandWord) :
    ∀ {s t : State} {rs : List Response}, runWords ws s = some (t, rs) →
      Sys2Proof.core.run ws.length { s with inputs := ws.map .command ++ s.inputs } = .next t ∧
        t.rsp = rs.getLast?.or s.rsp := by
  induction ws with
  | nil =>
    intro s t rs h
    cases h
    exact ⟨rfl, rfl⟩
  | cons w ws ih =>
    intro s t rs h
    obtain ⟨u, hu, inputs, streamed⟩ := step_command s w (ws.map .command ++ s.inputs)
    rw [runWords_cons hu] at h
    obtain ⟨⟨t', rs'⟩, run, heq⟩ := Option.map_eq_some_iff.1 h
    cases heq
    obtain ⟨reaches, last⟩ := ih run
    rw [inputs] at reaches
    refine ⟨(core_run_succ streamed).trans reaches, ?_⟩
    rw [last, rsp_of_step_present hu, List.getLast?_cons]
    cases rs'.getLast? <;> rfl

/-- Settles O22: the run of the core, with the response it holds; over at least one word that is the run's last. -/
theorem streamRunsWordsInOrder : Obligations.StreamRunsWordsInOrder := by
  intro ws s t rs h
  obtain ⟨reaches, last⟩ := core_run_of_runWords ws h
  refine ⟨reaches, fun nonempty => ?_⟩
  cases ws with
  | nil => exact absurd rfl nonempty
  | cons w ws =>
    obtain ⟨u, hu, -⟩ := step_present_answers s w
    rw [runWords_cons hu] at h
    obtain ⟨⟨t', rs'⟩, -, heq⟩ := Option.map_eq_some_iff.1 h
    cases heq
    rw [last, List.getLast?_cons, Option.some_or]

/-- Settles O23, by induction on the words: each is answered in one step that keeps the host's stream. -/
theorem runsAnswerEveryWord : Obligations.RunsAnswerEveryWord := by
  intro ws
  induction ws with
  | nil => exact fun s => ⟨s, [], rfl, rfl, rfl⟩
  | cons w ws ih =>
    intro s
    obtain ⟨u, hu, -, first⟩ := step_present_answers s w
    obtain ⟨t, rs, run, count, stream⟩ := ih u
    refine ⟨t, wordResponse w :: rs, ?_, congrArg (· + 1) count, stream.trans first⟩
    rw [runWords_cons hu, run, Option.map_some]

end Sys2Proof.Machine

/-! PROOFS. What holds of every command: which registers it writes (spec/10_state.md R24, R26, R27), that its result
depends on ACC alone, and the invariant on FLAGS and the decimal result. -/

namespace Sys2Proof.Machine

open Sys2Proof

/-! ### The zero test that DIV and MOD begin with (R103, R104) -/

/-- Its two outcomes: the fault changes neither ACC nor the decimal result, the completion writes ACC alone. -/
theorem zeroTest_spec {b v : Word} {s t : State}
    (h : (if operandVal b = 0 then .next (s.raise .divisionByZero) else .next ((s.writeAcc v).complete noFlags)) =
      (.next t : Host.Outcome State Fault Refusal)) :
    KeepsDecimal s t ∧ t.acc = if operandVal b = 0 then s.acc else Split.ofWord v := by
  by_cases zero : operandVal b = 0
  · rw [if_pos zero] at h
    cases h
    exact ⟨⟨State.raise_dec _ _, State.raise_dlen _ _⟩, by rw [if_pos zero, State.acc_raise]⟩
  · rw [if_neg zero] at h
    cases h
    exact ⟨keepsDecimal_writeAcc_complete _ _ _, by rw [if_neg zero, State.acc_complete, State.acc_writeAcc]⟩

/-! ### DEC and DLEN -/

/-- TODEC alone writes DEC and DLEN, and it writes the numeral of ACC (R27, R146). -/
theorem keepsDecimal_or_finishTodec {i : Instr} {s t : State} (h : exec i s = .next t) :
    KeepsDecimal s t ∨ (i = .todec ∧ t = s.finishTodec) := by
  cases i with
  | todec =>
    cases (exec_todec s).symm.trans h
    exact .inr ⟨rfl, rfl⟩
  | cmp b =>
    cases (exec_cmp b s).symm.trans h
    exact .inl (keepsDecimal_complete _ ⟨rfl, rfl⟩)
  | div b => exact .inl (zeroTest_spec h).left
  | mod b => exact .inl (zeroTest_spec h).left
  | _ =>
    cases h
    exact .inl (keepsDecimal_complete _ (keepsDecimal_writeAccPair _ _))

theorem KeepsDecimal.of_sameArch {s t : State} (h : SameArch s t) : KeepsDecimal s t := by
  obtain ⟨-, -, -, dec, dlen⟩ := h
  exact ⟨dec, dlen⟩

theorem KeepsDecimal.trans {s u t : State} (hsu : KeepsDecimal s u) (hut : KeepsDecimal u t) : KeepsDecimal s t := by
  obtain ⟨dec, dlen⟩ := hsu
  obtain ⟨dec', dlen'⟩ := hut
  exact ⟨dec'.trans dec, dlen'.trans dlen⟩

/-- Settles O21, by the kinds of step: a command other than TODEC keeps DEC and DLEN, and so do an illegal word and an
idle step. -/
theorem onlyTodecWritesDecimal : Obligations.OnlyTodecWritesDecimal := by
  intro s t h
  rcases step_cases h with ⟨-, rfl⟩ | ⟨w, u, i, event, decoded, run⟩ | ⟨w, u, e, event, -, rfl⟩ | ⟨u, event, -⟩ |
    ⟨w, u, event, -⟩
  · exact .inl ⟨State.idle_dec s, State.idle_dlen s⟩
  · rcases keepsDecimal_or_finishTodec run with keeps | ⟨rfl, -⟩
    · exact .inl ((KeepsDecimal.of_sameArch (sameArch_of_nextEvent event)).trans keeps)
    · obtain ⟨inputs, -⟩ := nextEvent_spec event
      obtain ⟨opc, -⟩ := (decode_eq_ok_iff w _).1 decoded
      exact .inr (.inl ⟨w, _, inputs, opc⟩)
  · exact .inl (.of_sameArch ((sameArch_of_nextEvent event).trans (sameArch_raise u _)))
  · obtain ⟨inputs, -⟩ := nextEvent_spec event
    exact .inr (.inr (.inl ⟨_, inputs⟩))
  · obtain ⟨inputs, -⟩ := nextEvent_spec event
    exact .inr (.inr (.inr ⟨w, _, inputs⟩))

/-! ### The result depends on ACC alone -/

/-- ACC after a command is a function of ACC before it. -/
theorem acc_of_exec_congr {i : Instr} {s s' t t' : State} (hacc : s.acc = s'.acc) (h : exec i s = .next t)
    (h' : exec i s' = .next t') : t.acc = t'.acc := by
  cases s
  cases s'
  cases hacc
  cases i with
  | div b => exact (zeroTest_spec h).right.trans (zeroTest_spec h').right.symm
  | mod b => exact (zeroTest_spec h).right.trans (zeroTest_spec h').right.symm
  | _ =>
    cases h
    cases h'
    rfl

/-- FLAGS of a completed command are a function of ACC before it. -/
theorem commandFlags_congr {s s' : State} (hacc : s.acc = s'.acc) (i : Instr) : commandFlags i s = commandFlags i s' := by
  have hval : s.accVal = s'.accVal := congrArg Split.val hacc
  cases i <;> simp only [commandFlags, hacc, hval]

/-- Settles O20: the response is a function of the command, and ACC, FLAGS and the numeral that TODEC writes are functions
of the command and ACC. -/
theorem resultDependsOnAccAlone : Obligations.ResultDependsOnAccAlone := by
  intro i s t s' t' hH hL h h'
  have hacc : s.acc = s'.acc := by rw [State.acc, State.acc, hH, hL]
  have acc := acc_of_exec_congr hacc h h'
  have rsp : t.rsp = t'.rsp := (rsp_of_exec h).trans (rsp_of_exec h').symm
  refine ⟨rsp, congrArg Split.high acc, congrArg Split.low acc, fun hc => ?flags, ?decimal⟩
  case flags =>
    rw [flags_of_exec_completed h hc, flags_of_exec_completed h' (rsp ▸ hc), commandFlags_congr hacc]
  case decimal =>
    rintro rfl
    have hval : s.accVal = s'.accVal := congrArg Split.val hacc
    cases (exec_todec s).symm.trans h
    cases (exec_todec s').symm.trans h'
    rw [State.finishTodec_dec, State.finishTodec_dec, State.finishTodec_dlen, State.finishTodec_dlen, hval]
    exact ⟨rfl, rfl⟩

/-! ### The invariant -/

theorem flagsLegal_zero : flagsLegal 0#6 := by
  intro i j hi
  simp at hi

/-- The flags of a command are at most one: each flag computation decides between exclusive conditions (R24). -/
theorem flagsLegal_commandFlags (i : Instr) (s : State) : flagsLegal (commandFlags i s) := by
  intro j k
  cases i with
  | add b =>
    simp only [commandFlags, carryFlags_getLsbD, decide_eq_true_iff]
    omega
  | inc =>
    simp only [commandFlags, carryFlags_getLsbD, decide_eq_true_iff]
    omega
  | sub b =>
    simp only [commandFlags, borrowFlags_getLsbD, decide_eq_true_iff]
    omega
  | dec =>
    simp only [commandFlags, borrowFlags_getLsbD, decide_eq_true_iff]
    omega
  | mul b =>
    simp only [commandFlags, overflowFlags_getLsbD, decide_eq_true_iff]
    omega
  | cmp b =>
    simp only [commandFlags, compareFlags_getLsbD, decide_eq_true_iff]
    omega
  | _ =>
    rw [commandFlags, noFlags_eq]
    exact flagsLegal_zero j k

/-- A command leaves legal flags: those it computes when it completes, the old ones when it faults (R24, R156). -/
theorem flagsLegal_of_exec {i : Instr} {s t : State} (h : exec i s = .next t) (hs : flagsLegal s.flags) :
    flagsLegal t.flags := by
  rcases exec_complete_or_raise i s with ⟨u, completes⟩ | raises
  · cases completes.symm.trans h
    rw [State.complete_flags]
    exact flagsLegal_commandFlags i s
  · cases raises.symm.trans h
    rwa [State.raise_flags]

/-- The lowest `n` digits of a number are its remainder by 10^n. -/
theorem sum_digits_eq_mod (a n : Nat) : ((List.range n).map fun i => a / 10 ^ i % 10 * 10 ^ i).sum = a % 10 ^ n := by
  induction n with
  | zero => simp [Nat.mod_one]
  | succ n ih =>
    rw [List.range_succ, List.map_append, List.sum_append, ih, List.map_singleton, List.sum_singleton, Nat.mod_pow_succ,
      Nat.mul_comm (10 ^ n)]

/-- The numeral in DEC after TODEC has the value of ACC (R141). -/
theorem decValue_finishTodec (s : State) : decValue s.finishTodec.dec = s.accVal := by
  have digits : ∀ i ∈ List.range 20, (decDigit s.finishTodec.dec i).toNat * 10 ^ i = s.accVal / 10 ^ i % 10 * 10 ^ i :=
    fun i hi => by rw [s.finishTodec_decDigit (List.mem_range.1 hi)]
  rw [decValue, List.map_congr_left digits, sum_digits_eq_mod, Nat.mod_eq_of_lt s.accVal_lt_ten_pow]

/-- TODEC leaves a legal numeral, by what `todecResult` says of its digits and its length (R26, R27). -/
theorem decimalLegal_finishTodec (s : State) : decimalLegal s.finishTodec.dec s.finishTodec.dlen := by
  obtain ⟨t, ht, -, -, -, digits, ⟨-, short, -, least⟩, zeros, top, -⟩ := todecResult s
  cases (exec_todec s).symm.trans ht
  refine ⟨fun i hi => ?digit, short, zeros, fun long => ?noLeadingZero, ?value⟩
  case digit =>
    have := digits i hi
    omega
  case noLeadingZero =>
    apply top
    intro zero
    have := least 1 (Nat.le_refl 1) (by omega)
    omega
  case value =>
    rw [decValue_finishTodec]
    exact s.accVal_lt

theorem decimalLegal_of_exec {i : Instr} {s t : State} (h : exec i s = .next t) (hs : decimalLegal s.dec s.dlen) :
    decimalLegal t.dec t.dlen := by
  rcases keepsDecimal_or_finishTodec h with ⟨dec, dlen⟩ | ⟨-, rfl⟩
  · rwa [dec, dlen]
  · exact decimalLegal_finishTodec s

theorem Inv.of_sameArch {s t : State} (h : SameArch s t) (hs : Inv s) : Inv t := by
  obtain ⟨-, -, flags, dec, dlen⟩ := h
  rwa [Inv, flags, dec, dlen]

/-- Settles O17: FLAGS is 0, and DEC and DLEN are the empty numeral. -/
theorem invariantAtReset : Obligations.InvariantAtReset := by
  refine ⟨flagsLegal_zero, fun i _ => ?_, ?_, fun i _ _ => decDigit_zero i, ?_, ?_⟩
  · rw [State.reset, decDigit_zero]
    decide
  all_goals decide

/-- Settles O18, by the kinds of step: a command leaves legal flags and a legal numeral, an idle step and an illegal word
change neither, and a reset gives the reset state. -/
theorem stepKeepsInvariant : Obligations.StepKeepsInvariant := by
  intro s t hs h
  rcases step_cases h with ⟨-, rfl⟩ | ⟨w, u, i, event, -, run⟩ | ⟨w, u, e, event, -, rfl⟩ | ⟨u, -, rfl⟩ | ⟨w, u, -, rfl⟩
  · exact hs
  · obtain ⟨flags, decimal⟩ := hs.of_sameArch (sameArch_of_nextEvent event)
    exact ⟨flagsLegal_of_exec run flags, decimalLegal_of_exec run decimal⟩
  · exact hs.of_sameArch ((sameArch_of_nextEvent event).trans (sameArch_raise u _))
  · exact invariantAtReset
  · exact invariantAtReset

end Sys2Proof.Machine

/-! PROOFS. The reference datapaths of ADD, SUB and the shifts on the split pair (spec/00_scope.md R13; spec/41_add_sub.md
R77, R78, R81, R82; spec/44_shift.md R121, R122): each computes its result on the magnitude. -/

namespace Sys2Proof

/-! ### Pairs as numbers -/

/-- The magnitude of a pair by its two parts as numbers. -/
theorem Split.val_mk (h : BitVec 1) (l : BitVec 63) : (Split.mk h l).val = l.toNat + 2 ^ 63 * h.toNat := rfl

/-- A pair with a magnitude below 2^63 has `high_bit` 0. -/
theorem Split.high_eq_zero_iff (p : Split) : p.high = 0#1 ↔ p.val < 2 ^ 63 := by
  have low := p.low_lt
  rcases p.high_cases with h | h
  · simpa [Split.val, h] using low
  · simp [Split.val, h]

theorem Split.val_eq_low_of_high {p : Split} (h : p.high = 0#1) : p.val = p.low.toNat := by
  rw [Split.val, h, BitVec.toNat_zero, Nat.mul_zero, Nat.add_zero]

/-- The pair of a number below 2^63. -/
theorem Split.val_low_ofNat {n : Nat} (h : n < 2 ^ 63) : (Split.mk 0#1 (BitVec.ofNat 63 n)).val = n := by
  rw [Split.val_mk, BitVec.toNat_ofNat, Nat.mod_eq_of_lt h, BitVec.toNat_zero, Nat.mul_zero, Nat.add_zero]

/-! ### The adder of R77 -/

/-- `c62`, bit 63 of the raw sum of two 63-bit parts, is its carry out of 63 bits. -/
theorem rawSum_carry (x y : BitVec 63) :
    (x.setWidth 64 + y.setWidth 64).getLsbD 63 = decide (2 ^ 63 ≤ x.toNat + y.toNat) := by
  have hx := x.isLt
  have hy := y.isLt
  rw [BitVec.getLsbD, Nat.testBit_eq_decide_div_mod_eq, BitVec.toNat_add, BitVec.toNat_setWidth, BitVec.toNat_setWidth]
  congr 1
  apply propext
  omega

/-- Both ways in which the adder forms the low part, the raw sum and the masked partial sum with the carry `t` above it,
give the sum of the low parts modulo 2^63. -/
theorem addDatapath_low (a b : Split) : (addDatapath a b).1.low = a.low + b.low := by
  have ha := a.low_lt
  have hb := b.low_lt
  apply BitVec.eq_of_toNat_eq
  simp only [addDatapath]
  split
  · rw [BitVec.toNat_append, ← Nat.shiftLeft_add_eq_or_of_lt (BitVec.isLt _), Nat.shiftLeft_eq]
    simp only [BitVec.extractLsb'_toNat, BitVec.toNat_add, BitVec.toNat_setWidth, Nat.shiftRight_eq_div_pow]
    omega
  · simp only [BitVec.extractLsb'_toNat, BitVec.toNat_add, BitVec.toNat_setWidth, Nat.shiftRight_eq_div_pow]
    omega

/-- The high part of the sum is the sum modulo 2 of the high parts and the carry out of the low parts, and C is the carry
out of that sum. -/
theorem addDatapath_high (a b : Split) :
    (addDatapath a b).1.high.toNat + 2 * (addDatapath a b).2.toNat =
      a.high.toNat + b.high.toNat + (decide (2 ^ 63 ≤ a.low.toNat + b.low.toNat)).toNat := by
  simp only [addDatapath, rawSum_carry]
  rcases a.high_cases with ha | ha <;> rcases b.high_cases with hb | hb <;> rw [ha, hb] <;>
    cases decide (2 ^ 63 ≤ a.low.toNat + b.low.toNat) <;> decide

/-- The adder is exact: the pair and C together are the true sum (R78). -/
theorem addDatapath_exact (a b : Split) :
    (addDatapath a b).1.val + 2 ^ 64 * (addDatapath a b).2.toNat = a.val + b.val := by
  have ha := a.low_lt
  have hb := b.low_lt
  have low : (addDatapath a b).1.low.toNat = (a.low.toNat + b.low.toNat) % 2 ^ 63 := by
    rw [addDatapath_low, BitVec.toNat_add]
  have high := addDatapath_high a b
  simp only [Split.val]
  by_cases carry : 2 ^ 63 ≤ a.low.toNat + b.low.toNat
  · rw [decide_eq_true carry, Bool.toNat_true] at high
    omega
  · rw [decide_eq_false carry, Bool.toNat_false] at high
    omega

/-- The pair of the adder is the sum modulo 2^64. -/
theorem addDatapath_val (a b : Split) : (addDatapath a b).1.val = (a.val + b.val) % 2 ^ 64 := by
  have sum := addDatapath_exact a b
  have := (addDatapath a b).1.val_lt
  omega

/-- C of the adder is the carry out of bit 63. -/
theorem addDatapath_carry (a b : Split) : (addDatapath a b).2 = decide (2 ^ 64 ≤ a.val + b.val) := by
  have sum := addDatapath_exact a b
  have := (addDatapath a b).1.val_lt
  cases h : (addDatapath a b).2 with
  | false =>
    rw [h, Bool.toNat_false] at sum
    exact (decide_eq_false (by omega)).symm
  | true =>
    rw [h, Bool.toNat_true] at sum
    exact (decide_eq_true (by omega)).symm

/-! ### The subtractor of R81 -/

/-- A low part written as an integer is the difference of two low parts when it is so modulo 2^63. -/
theorem ofInt63_eq_sub {x y : BitVec 63} {d : Int} (h : d % 2 ^ 63 = ((x.toNat : Int) - (y.toNat : Int)) % 2 ^ 63) :
    BitVec.ofInt 63 d = x - y := by
  have hx := x.isLt
  have hy := y.isLt
  apply BitVec.eq_of_toNat_eq
  rw [BitVec.toNat_ofInt, BitVec.toNat_sub]
  omega

/-- In every branch of the subtractor the low part is the difference of the low parts modulo 2^63. -/
theorem subDatapath_low (a b : Split) : (subDatapath a b).1.low = a.low - b.low := by
  simp only [subDatapath, int64Max]
  split
  next same =>
    obtain ⟨low, -⟩ := same
    rw [low, BitVec.sub_self]
  next =>
    split
    · split
      · exact ofInt63_eq_sub (by omega)
      · exact ofInt63_eq_sub (by omega)
    · exact ofInt63_eq_sub rfl

/-- The high part and B are the difference of the high parts less the borrow that the low parts need. -/
theorem subDatapath_high (a b : Split) :
    ((subDatapath a b).1.high.toNat : Int) - 2 * ((subDatapath a b).2.toNat : Int) =
      (a.high.toNat : Int) - (b.high.toNat : Int) - ((decide (a.low.toNat < b.low.toNat)).toNat : Int) := by
  have borrow : (a.low.toNat : Int) - (b.low.toNat : Int) < 0 ↔ a.low.toNat < b.low.toNat := by omega
  by_cases same : a.low = b.low ∧ a.high = b.high
  · obtain ⟨low, high⟩ := same
    simp [subDatapath, low, high]
  · simp only [subDatapath, if_neg same, borrow]
    by_cases less : a.low.toNat < b.low.toNat
    · simp only [less, decide_true, if_true]
      rcases a.high_cases with ha | ha <;> rcases b.high_cases with hb | hb <;> rw [ha, hb] <;> rfl
    · simp only [less, decide_false, if_false]
      rcases a.high_cases with ha | ha <;> rcases b.high_cases with hb | hb <;> rw [ha, hb] <;> decide

/-- The subtractor is exact: the pair less the borrow B is the true difference (R82). -/
theorem subDatapath_exact (a b : Split) :
    ((subDatapath a b).1.val : Int) - 2 ^ 64 * ((subDatapath a b).2.toNat : Int) = (a.val : Int) - (b.val : Int) := by
  have ha := a.low_lt
  have hb := b.low_lt
  have low : (subDatapath a b).1.low.toNat = (2 ^ 63 - b.low.toNat + a.low.toNat) % 2 ^ 63 := by
    rw [subDatapath_low, BitVec.toNat_sub]
  have high := subDatapath_high a b
  simp only [Split.val]
  by_cases less : a.low.toNat < b.low.toNat
  · rw [decide_eq_true less, Bool.toNat_true] at high
    omega
  · rw [decide_eq_false less, Bool.toNat_false] at high
    omega

/-- The pair of the subtractor is the difference modulo 2^64. -/
theorem subDatapath_val (a b : Split) :
    ((subDatapath a b).1.val : Int) = ((a.val : Int) - (b.val : Int)) % 2 ^ 64 := by
  have diff := subDatapath_exact a b
  have := (subDatapath a b).1.val_lt
  omega

/-- B of the subtractor is the order of the magnitudes. -/
theorem subDatapath_borrow (a b : Split) : (subDatapath a b).2 = decide (a.val < b.val) := by
  have diff := subDatapath_exact a b
  have := (subDatapath a b).1.val_lt
  cases h : (subDatapath a b).2 with
  | false =>
    rw [h, Bool.toNat_false] at diff
    exact (decide_eq_false (by omega)).symm
  | true =>
    rw [h, Bool.toNat_true] at diff
    exact (decide_eq_true (by omega)).symm

/-! ### The pair shifters of R121 and R122 -/

/-- The left pair shifter multiplies by 2^e modulo 2^64: the bit that leaves the low part enters the high part. -/
theorem shiftLeftPair_val (a : Split) {e : Nat} (he : e ≤ 63) : (shiftLeftPair a e).val = a.val * 2 ^ e % 2 ^ 64 := by
  rw [shiftLeftPair]
  split
  next zero => rw [zero, pow_zero, Nat.mul_one, Nat.mod_eq_of_lt a.val_lt]
  next pos =>
    have bit : a.low.toNat * 2 ^ e / 2 ^ 63 = a.low.toNat / 2 ^ (63 - e) := by
      rw [← Nat.mul_div_mul_right a.low.toNat (2 ^ (63 - e)) (Nat.two_pow_pos e), ← Nat.pow_add,
        Nat.sub_add_cancel he]
    have leaves : a.val * 2 ^ e % 2 ^ 64 = a.low.toNat * 2 ^ e % 2 ^ 64 := by
      have split : a.val * 2 ^ e = a.low.toNat * 2 ^ e + 2 ^ 64 * (a.high.toNat * 2 ^ (e - 1)) := by
        have : 2 ^ e = 2 * 2 ^ (e - 1) := by rw [← Nat.pow_succ', Nat.succ_eq_add_one, Nat.sub_add_cancel (by omega)]
        rw [Split.val, Nat.add_mul, this]
        ring
      rw [split, Nat.add_mul_mod_self_left]
    rw [leaves, Nat.pow_succ 2 63, Nat.mod_mul, bit, Split.val_mk, BitVec.toNat_shiftLeft, Nat.shiftLeft_eq,
      BitVec.toNat_ofBool, BitVec.getLsbD, Nat.testBit_eq_decide_div_mod_eq]
    rcases Nat.mod_two_eq_zero_or_one (a.low.toNat / 2 ^ (63 - e)) with h | h <;> simp [h]

/-- The right pair shifter divides by 2^e: the high bit lands at bit 63 - e. -/
theorem shiftRightPair_val (a : Split) {e : Nat} (he : e ≤ 63) : (shiftRightPair a e).val = a.val / 2 ^ e := by
  rw [shiftRightPair]
  split
  next zero => rw [zero, pow_zero, Nat.div_one]
  next pos =>
    have lands : a.low.toNat >>> e + a.high.toNat * 2 ^ (63 - e) = a.val / 2 ^ e := by
      have split : a.val = a.low.toNat + 2 ^ e * (a.high.toNat * 2 ^ (63 - e)) := by
        have : (2 : Nat) ^ 63 = 2 ^ e * 2 ^ (63 - e) := by rw [← Nat.pow_add, Nat.add_sub_cancel' he]
        rw [Split.val, this]
        ring
      rw [Nat.shiftRight_eq_div_pow, split, Nat.add_mul_div_left _ _ (Nat.two_pow_pos e)]
    have small : a.val / 2 ^ e < 2 ^ 63 := by
      have two : 2 ≤ 2 ^ e := Nat.le_self_pow pos 2
      have := a.val_lt
      exact (Nat.div_le_div_left two (by decide)).trans_lt (by omega)
    rw [lands, Split.val_low_ofNat small]

end Sys2Proof

namespace Sys2Proof.Machine

open Sys2Proof

/-! ### The obligations -/

/-- The operand 1 of INC and DEC as a pair. -/
theorem ofWord_one : Split.ofWord 1#64 = ⟨0#1, 1#63⟩ := by decide

/-- ADD leaves the outputs of the adder (R78): both are the true sum, split at 2^64. -/
theorem exec_add_datapath {b : Word} {s t : State} (h : exec (.add b) s = .next t) :
    t.acc = (addDatapath s.acc (Split.ofWord b)).1 ∧ flagC t.flags = (addDatapath s.acc (Split.ofWord b)).2 := by
  obtain ⟨t', ht', -, -, value, flags, -⟩ := addResult b s
  cases ht'.symm.trans h
  refine ⟨Split.val_inj ?pair, Bool.eq_iff_iff.2 ?carry⟩
  case pair =>
    rw [addDatapath_val, Split.val_ofWord]
    exact value
  case carry =>
    rw [addDatapath_carry, Split.val_ofWord, decide_eq_true_iff, flagC, flags 0, eq_self, true_and]
    rfl

/-- SUB leaves the outputs of the subtractor (R82). -/
theorem exec_sub_datapath {b : Word} {s t : State} (h : exec (.sub b) s = .next t) :
    t.acc = (subDatapath s.acc (Split.ofWord b)).1 ∧ flagB t.flags = (subDatapath s.acc (Split.ofWord b)).2 := by
  obtain ⟨t', ht', -, -, value, flags, -⟩ := subResult b s
  cases ht'.symm.trans h
  refine ⟨Split.val_inj (Nat.cast_injective (R := Int) ?pair), Bool.eq_iff_iff.2 ?borrow⟩
  case pair =>
    rw [subDatapath_val, Split.val_ofWord]
    exact value
  case borrow =>
    rw [subDatapath_borrow, Split.val_ofWord, decide_eq_true_iff, flagB, flags 1, eq_self, true_and]
    rfl

/-- Settles O43: the adder gives what ADD leaves, and INC is ADD 1. -/
theorem addDatapathRefines : Obligations.AddDatapathRefines := by
  intro b s t
  refine ⟨exec_add_datapath, fun h => ?_⟩
  rw [exec_inc_eq_add_one] at h
  rw [← ofWord_one]
  exact exec_add_datapath h

/-- Settles O44: the subtractor gives what SUB leaves, and DEC is SUB 1. -/
theorem subDatapathRefines : Obligations.SubDatapathRefines := by
  intro b s t
  refine ⟨exec_sub_datapath, fun h => ?_⟩
  rw [exec_dec_eq_sub_one] at h
  rw [← ofWord_one]
  exact exec_sub_datapath h

/-- What a shift by an effective amount leaves in ACC. -/
theorem State.finishShift_accVal (s : State) {n : Word} {e : Nat} (he : shiftAmount Config.shiftOverwidth n = some e)
    {f : Nat → Nat} (fits : f e < 2 ^ 64) : (s.finishShift n f).accVal = f e := by
  rw [State.finishShift, he, Option.elim_some]
  obtain ⟨-, -, value, -⟩ := s.finishPlain_spec fits
  exact value

/-- Settles O47: the shifts by an effective amount multiply and divide by 2^e, and so do the pair shifters. -/
theorem shiftDatapathRefines : Obligations.ShiftDatapathRefines := by
  intro n s e he
  have small := shiftAmount_le _ n e he
  refine ⟨_, _, (exec_lsl_eq_asl n s).trans (exec_asl n s), exec_asl n s, (exec_lsr_eq_asr n s).trans (exec_asr n s),
    exec_asr n s, Split.val_inj ?left, Split.val_inj ?right⟩
  case left =>
    rw [shiftLeftPair_val _ small]
    exact s.finishShift_accVal he (Nat.mod_lt _ (Nat.two_pow_pos 64))
  case right =>
    rw [shiftRightPair_val _ small]
    exact s.finishShift_accVal he (s.accVal_div_lt _)

end Sys2Proof.Machine

/-! PROOFS. The reference datapaths of MUL, DIV and MOD (spec/42_multiply.md R93, R94; spec/43_divide_modulo.md R105,
R106): the rounds of the multiplier and the levels of the divider on the magnitude. -/

namespace Sys2Proof

/-! ### Bit lengths -/

/-- The bit length is the least number of bits that holds the value. -/
theorem bitLength_le_iff (v n : Nat) : bitLength v ≤ n ↔ v < 2 ^ n := by
  rw [bitLength]
  split
  next zero => simp [zero]
  next pos => rw [← Nat.log2_lt pos, Nat.add_comm, Nat.succ_le_iff]

theorem lt_two_pow_bitLength (v : Nat) : v < 2 ^ bitLength v := (bitLength_le_iff v _).1 (Nat.le_refl _)

/-- A value with a bit length has its top bit. -/
theorem two_pow_le_of_bitLength {v n : Nat} (h : n + 1 ≤ bitLength v) : 2 ^ n ≤ v :=
  not_lt.1 fun small => h.not_gt (Nat.lt_succ_of_le ((bitLength_le_iff v n).2 small))

/-- A product needs at most as many bits as its factors have together. -/
theorem mul_lt_two_pow_of_bitLength {v w n : Nat} (h : bitLength v + bitLength w ≤ n) : v * w < 2 ^ n := by
  have factors : v * w < 2 ^ bitLength v * 2 ^ bitLength w :=
    Nat.mul_lt_mul'' (lt_two_pow_bitLength v) (lt_two_pow_bitLength w)
  rw [← Nat.pow_add] at factors
  exact factors.trans_le (Nat.pow_le_pow_right (by decide) h)

/-! ### The multiplier of R93 -/

/-- `lost`: bits of `a << i` beyond position 63. -/
theorem lostBits_eq (a : Split) {i : Nat} (hi : i ≤ 64) : lostBits a i = decide (2 ^ 64 ≤ a.val * 2 ^ i) := by
  have high : a.val >>> (64 - i) ≠ 0 ↔ 2 ^ 64 ≤ a.val * 2 ^ i := by
    have power : (2 : Nat) ^ 64 = 2 ^ (64 - i) * 2 ^ i := by rw [← Nat.pow_add, Nat.sub_add_cancel hi]
    rw [Nat.shiftRight_eq_div_pow, Nat.div_ne_zero_iff, power, Nat.mul_le_mul_right_iff (Nat.two_pow_pos i)]
    simp
  rw [lostBits]
  split
  next zero =>
    have := a.val_lt
    exact (decide_eq_false (by simp [zero]; omega)).symm
  next => rw [decide_eq_decide, high]

/-- What the multiplier has after the rounds of the bits below `k`: the product with those bits, and its overflow. -/
def MulPartial (a b : Split) (k : Nat) (r : Split × Bool) : Prop :=
  r.1.val = a.val * (b.val % 2 ^ k) % 2 ^ 64 ∧ r.2 = decide (2 ^ 64 ≤ a.val * (b.val % 2 ^ k))

/-- A round adds `a << k` when bit `k` of `b` is set; the sum overflows when one of its terms did or when it carries. -/
theorem mulPartial_mulRound {a b : Split} {k : Nat} {r : Split × Bool} (hk : k ≤ 63) (h : MulPartial a b k r) :
    MulPartial a b (k + 1) (mulRound a b r k) := by
  obtain ⟨value, overflow⟩ := h
  have bit : b.pat.getLsbD k = decide (b.val / 2 ^ k % 2 = 1) := by
    rw [BitVec.getLsbD, Nat.testBit_eq_decide_div_mod_eq, b.pat_toNat]
  have nextBit : b.val % 2 ^ (k + 1) = b.val % 2 ^ k + 2 ^ k * (b.val / 2 ^ k % 2) := Nat.mod_pow_succ
  rw [MulPartial, nextBit, mulRound, bit]
  rcases Nat.mod_two_eq_zero_or_one (b.val / 2 ^ k) with clear | set
  · simpa [clear] using And.intro value overflow
  · simp only [set, decide_true, if_true, Nat.mul_one, Nat.mul_add, addDatapath_val, addDatapath_carry,
      shiftLeftPair_val a hk, lostBits_eq a (Nat.le_succ_of_le hk), value, overflow]
    generalize a.val * (b.val % 2 ^ k) = done
    generalize a.val * 2 ^ k = term
    refine ⟨by omega, Bool.eq_iff_iff.2 ?_⟩
    simp only [Bool.or_eq_true, decide_eq_true_iff]
    omega

/-- The rounds in order. -/
theorem mulPartial_foldl (a b : Split) {k : Nat} (hk : k ≤ 64) :
    MulPartial a b k ((List.range k).foldl (mulRound a b) (⟨0#1, 0#63⟩, false)) := by
  induction k with
  | zero => simp [MulPartial, Split.val_mk, Nat.mod_one]
  | succ k ih =>
    rw [List.range_succ, List.foldl_append, List.foldl_cons, List.foldl_nil]
    exact mulPartial_mulRound (Nat.le_of_succ_le_succ hk) (ih (Nat.le_of_succ_le hk))

/-- The direct path: a product below 2^63 is that of the low parts. -/
theorem val_mul_low {a b : Split} (h : bitLength a.val + bitLength b.val ≤ 63) :
    (Split.mk 0#1 (a.low * b.low)).val = a.val * b.val := by
  have product := mul_lt_two_pow_of_bitLength h
  have ha : a.val < 2 ^ 63 := (bitLength_le_iff _ _).1 (by omega)
  have hb : b.val < 2 ^ 63 := (bitLength_le_iff _ _).1 (by omega)
  rw [Split.val_mk, BitVec.toNat_mul, ← Split.val_eq_low_of_high (a.high_eq_zero_iff.2 ha),
    ← Split.val_eq_low_of_high (b.high_eq_zero_iff.2 hb), Nat.mod_eq_of_lt product, BitVec.toNat_zero, Nat.mul_zero,
    Nat.add_zero]

/-- The multiplier of R93, on each of its four paths: the product modulo 2^64, and whether bits are lost (R94). -/
theorem mulDatapath_spec (a b : Split) :
    (mulDatapath a b).1.val = a.val * b.val % 2 ^ 64 ∧ (mulDatapath a b).2 = decide (2 ^ 64 ≤ a.val * b.val) := by
  have ha := a.val_lt
  rw [mulDatapath]
  split
  next zero => simp [zero, Split.val_mk]
  next =>
    split
    next one =>
      rw [one, Nat.mul_one, Nat.mod_eq_of_lt ha]
      exact ⟨rfl, (decide_eq_false (by omega)).symm⟩
    next =>
      split
      next short =>
        have product := mul_lt_two_pow_of_bitLength short
        rw [val_mul_low short, Nat.mod_eq_of_lt (by omega)]
        exact ⟨rfl, (decide_eq_false (by omega)).symm⟩
      next =>
        have rounds := mulPartial_foldl a b ((bitLength_le_iff b.val 64).2 b.val_lt)
        rwa [MulPartial, Nat.mod_eq_of_lt (lt_two_pow_bitLength b.val)] at rounds

/-! ### The divider of R105 -/

/-- The scan finds the largest shift up to `k` of the divisor that the dividend holds. -/
theorem findShift_spec {a b : Split} (h : b.val ≤ a.val) {k : Nat} (hk : k ≤ 63) :
    findShift a b k ≤ k ∧ b.val * 2 ^ findShift a b k ≤ a.val ∧
      (findShift a b k < k → a.val < b.val * 2 ^ (findShift a b k + 1)) := by
  induction k with
  | zero => exact ⟨Nat.le_refl 0, by simpa [findShift] using h, fun less => absurd less (Nat.not_lt_zero _)⟩
  | succ k ih =>
    have test : (shiftRightPair a (k + 1)).lt b = true ↔ a.val < b.val * 2 ^ (k + 1) := by
      rw [Split.lt_iff_val, shiftRightPair_val a hk, Nat.div_lt_iff_lt_mul (Nat.two_pow_pos _)]
    obtain ⟨bound, holds, largest⟩ := ih (Nat.le_of_succ_le hk)
    rw [findShift]
    split
    next less =>
      refine ⟨Nat.le_succ_of_le bound, holds, fun _ => ?_⟩
      rcases bound.lt_or_eq with below | top
      · exact largest below
      · rw [top]
        exact test.1 less
    next fits =>
      exact ⟨Nat.le_refl _, not_lt.1 (mt test.2 fits), fun less => absurd less (Nat.lt_irrefl _)⟩

/-- `a[s-1:0]` is the remainder by 2^s. -/
theorem lowBits_val (a : Split) {s : Nat} (hs : s ≤ 63) : (lowBits a s).val = a.val % 2 ^ s := by
  have low : a.val % 2 ^ s = a.low.toNat % 2 ^ s := by
    have power : (2 : Nat) ^ 63 = 2 ^ s * 2 ^ (63 - s) := by rw [← Nat.pow_add, Nat.add_sub_cancel' hs]
    rw [Split.val, power, Nat.mul_assoc, Nat.add_mul_mod_self_left]
  rw [low, lowBits, Split.val_low_ofNat ((Nat.mod_le _ _).trans_lt a.low_lt)]

/-- The dividend of the next level: the divisor shifted by `s` is taken from it, `a - b * 2^s` (R105). -/
def divRest (a b : Split) (s : Nat) : Split :=
  (addDatapath (shiftLeftPair (subDatapath (shiftRightPair a s) b).1 s) (lowBits a s)).1

theorem divRest_val {a b : Split} {s : Nat} (hs : s ≤ 63) (h : b.val * 2 ^ s ≤ a.val) :
    (divRest a b s).val = a.val - b.val * 2 ^ s := by
  have ha := a.val_lt
  have quotient : b.val ≤ a.val / 2 ^ s := (Nat.le_div_iff_mul_le (Nat.two_pow_pos s)).2 h
  have le := Nat.div_le_self a.val (2 ^ s)
  have diff : (subDatapath (shiftRightPair a s) b).1.val = a.val / 2 ^ s - b.val := by
    have := subDatapath_val (shiftRightPair a s) b
    rw [shiftRightPair_val a hs] at this
    omega
  have parts := Nat.div_add_mod' a.val (2 ^ s)
  have taken := Nat.mul_le_mul_right (2 ^ s) quotient
  rw [divRest, addDatapath_val, shiftLeftPair_val _ hs, diff, lowBits_val a hs, Nat.sub_mul]
  omega

/-- A bound on the quotients that the recursion of R105 settles within a depth: each level takes off the top bit of the
quotient, or 2^62 where the scan ends at its start. -/
def quotientReach : Nat → Nat
  | 0 => 1
  | depth + 1 => quotientReach depth + min (quotientReach depth) (2 ^ 62)

theorem quotientReach_succ (depth : Nat) :
    quotientReach (depth + 1) = quotientReach depth + min (quotientReach depth) (2 ^ 62) := rfl

/-- The reach doubles while it is at most 2^62. -/
theorem two_pow_le_quotientReach {depth : Nat} (h : depth ≤ 62) : 2 ^ depth ≤ quotientReach depth := by
  induction depth with
  | zero => exact Nat.le_refl 1
  | succ depth ih =>
    have reach := ih (Nat.le_of_succ_le h)
    have := le_min reach (Nat.pow_le_pow_right (by decide : 0 < 2) (Nat.le_of_succ_le h))
    rw [quotientReach_succ, Nat.pow_succ]
    omega

/-- From there on it grows by 2^62. -/
theorem mul_two_pow_le_quotientReach (k : Nat) : (k + 1) * 2 ^ 62 ≤ quotientReach (62 + k) := by
  induction k with
  | zero =>
    rw [Nat.zero_add, Nat.one_mul]
    exact two_pow_le_quotientReach (Nat.le_refl 62)
  | succ k ih =>
    have growth := le_min ((Nat.le_mul_of_pos_left (2 ^ 62) (Nat.succ_pos k)).trans ih) (Nat.le_refl (2 ^ 62))
    rw [← Nat.add_assoc, quotientReach_succ, Nat.succ_mul]
    exact Nat.add_le_add ih growth

/-- The depth of the model reaches every quotient of 64 bits (log entry 7). -/
theorem two_pow_64_le_quotientReach : 2 ^ 64 ≤ quotientReach divModDepth :=
  Nat.le_trans (by decide : 2 ^ 64 ≤ (66 + 1) * 2 ^ 62) (mul_two_pow_le_quotientReach 66)

/-- The next level's dividend is within the reach of the depth that is left. -/
theorem rest_lt_of_quotientReach {a b s depth : Nat} (hb : 0 < b) (h : a < b * quotientReach (depth + 1))
    (holds : b * 2 ^ s ≤ a) (largest : s < 62 → a < b * 2 ^ (s + 1)) :
    a - b * 2 ^ s < b * quotientReach depth := by
  rw [quotientReach_succ, Nat.mul_add] at h
  by_cases large : min (quotientReach depth) (2 ^ 62) ≤ 2 ^ s
  · have := Nat.mul_le_mul_left b large
    omega
  · obtain ⟨below, top⟩ := lt_min_iff.1 (not_le.1 large)
    have less := largest ((Nat.pow_lt_pow_iff_right (by decide)).1 top)
    have := Nat.mul_lt_mul_of_pos_left below hb
    rw [Nat.pow_succ, ← Nat.mul_assoc] at less
    omega

/-- The engine of R105 divides: by induction on the depth, for a dividend within its reach. -/
theorem divModDatapath_spec {b : Split} (hb : 0 < b.val) (depth : Nat) :
    ∀ {a : Split}, a.val < b.val * quotientReach depth →
      (divModDatapath depth a b).1.val = a.val / b.val ∧ (divModDatapath depth a b).2.val = a.val % b.val := by
  induction depth with
  | zero =>
    intro a h
    rw [quotientReach, Nat.mul_one] at h
    rw [divModDatapath, Nat.div_eq_of_lt h, Nat.mod_eq_of_lt h]
    exact ⟨rfl, rfl⟩
  | succ depth ih =>
    intro a h
    rw [divModDatapath]
    split
    next equal =>
      rw [(a.eq_iff_val b).1 equal, Nat.div_self hb, Nat.mod_self]
      exact ⟨rfl, rfl⟩
    next =>
      split
      next less =>
        have less := (a.lt_iff_val b).1 less
        rw [Nat.div_eq_of_lt less, Nat.mod_eq_of_lt less]
        exact ⟨rfl, rfl⟩
      next notLess =>
        split
        next high =>
          obtain ⟨ha, hb⟩ := high
          rw [Split.val_eq_low_of_high ha, Split.val_eq_low_of_high hb, Split.val_mk, Split.val_mk, BitVec.toNat_udiv,
            BitVec.toNat_umod]
          exact ⟨rfl, rfl⟩
        next =>
          have le : b.val ≤ a.val := not_lt.1 (mt (a.lt_iff_val b).2 notLess)
          obtain ⟨hs, holds, largest⟩ := findShift_spec le (k := 62) (by decide)
          generalize findShift a b 62 = s at hs holds largest
          have rest := divRest_val (hs.trans (by decide)) holds
          obtain ⟨quotient, remainder⟩ := ih (a := divRest a b s)
            (rest ▸ rest_lt_of_quotientReach hb h holds largest)
          rw [rest] at quotient remainder
          have split : a.val = a.val - b.val * 2 ^ s + b.val * 2 ^ s := (Nat.sub_add_cancel holds).symm
          have total : a.val / b.val = (a.val - b.val * 2 ^ s) / b.val + 2 ^ s := by
            rw [← Nat.add_mul_div_left _ _ hb, ← split]
          have power : (Split.mk 0#1 (BitVec.ofNat 63 (2 ^ s))).val = 2 ^ s :=
            Split.val_low_ofNat (Nat.pow_lt_pow_right (by decide) (Nat.lt_succ_of_le hs))
          refine ⟨?_, remainder.trans ?_⟩
          · change (addDatapath _ (divModDatapath depth (divRest a b s) b).1).1.val = _
            rw [addDatapath_val, power, quotient, Nat.add_comm, ← total,
              Nat.mod_eq_of_lt ((Nat.div_le_self _ _).trans_lt a.val_lt)]
          · rw [← Nat.add_mul_mod_self_left _ b.val (2 ^ s), ← split]

end Sys2Proof

namespace Sys2Proof.Machine

open Sys2Proof

/-! ### The obligations -/

/-- Settles O45: MUL leaves the product modulo 2^64 and V of the whole product, and so does the multiplier. -/
theorem mulDatapathRefines : Obligations.MulDatapathRefines := by
  intro b s t h
  obtain ⟨t', ht', -, -, value, flags, -⟩ := mulResult b s
  cases ht'.symm.trans h
  obtain ⟨pair, overflow⟩ := mulDatapath_spec s.acc (Split.ofWord b)
  rw [Split.val_ofWord] at pair overflow
  refine ⟨Split.val_inj (value.trans pair.symm), Bool.eq_iff_iff.2 ?_⟩
  rw [overflow, decide_eq_true_iff, flagV, flags 2, eq_self, true_and]
  rfl

/-- Settles O46: DIV and MOD leave the quotient and the remainder, which the engine gives for every dividend of 64
bits. -/
theorem divModDatapathRefines : Obligations.DivModDatapathRefines := by
  intro b s t u hb ht hu
  obtain ⟨t', ht', -, -, quotient, -⟩ := (divResult b s).1 hb
  obtain ⟨u', hu', -, -, remainder, -⟩ := (modResult b s).1 hb
  cases ht'.symm.trans ht
  cases hu'.symm.trans hu
  have divisor : (Split.ofWord b).val = b.toNat := Split.val_ofWord b
  have pos : 0 < (Split.ofWord b).val := by
    rw [divisor]
    exact Nat.pos_of_ne_zero (mt (operandVal_eq_zero_iff b).1 hb)
  have within : s.acc.val < (Split.ofWord b).val * quotientReach divModDepth :=
    s.acc.val_lt.trans_le (two_pow_64_le_quotientReach.trans (Nat.le_mul_of_pos_left _ pos))
  obtain ⟨first, second⟩ := divModDatapath_spec pos divModDepth within
  rw [divisor] at first second
  exact ⟨Split.val_inj (quotient.trans first.symm), Split.val_inj (remainder.trans second.symm)⟩

end Sys2Proof.Machine

/-! PROOFS. The digits of a number, units digit first, and the reference datapath of TODEC (spec/47_decimal.md R141 to
R143): the digit adder adds numbers, and the position of the top digit is the length. -/

namespace Sys2Proof.Machine

open Sys2Proof

/-! ### The lowest digits of a number -/

/-- The lowest `n` digits of `a`, units digit first. -/
def digitsUpTo (n a : Nat) : List Nat := (List.range n).map fun i => a / 10 ^ i % 10

theorem decimalDigits_eq (a : Nat) : decimalDigits a = digitsUpTo 20 a := rfl

theorem digitsUpTo_zero (a : Nat) : digitsUpTo 0 a = [] := rfl

/-- The units digit, and the digits of the tenth. -/
theorem digitsUpTo_succ (n a : Nat) : digitsUpTo (n + 1) a = a % 10 :: digitsUpTo n (a / 10) := by
  rw [digitsUpTo, List.range_succ_eq_map, List.map_cons, List.map_map, pow_zero, Nat.div_one]
  congr 1
  apply List.map_congr_left
  intro i _
  rw [Function.comp_apply, Nat.succ_eq_add_one, Nat.pow_succ', Nat.div_div_eq_div_mul]

/-- A number below 10^n has the digit 0 at place n. -/
theorem digitsUpTo_succ_of_lt {n a : Nat} (h : a < 10 ^ n) : digitsUpTo (n + 1) a = digitsUpTo n a ++ [0] := by
  rw [digitsUpTo, List.range_succ, List.map_append, List.map_singleton, digit_eq_zero_of_lt_pow h]
  rfl

/-! ### The digit adder -/

/-- Digit-by-digit addition with carry adds the numbers. -/
theorem addDigits_digitsUpTo (n x y c : Nat) :
    addDigits (digitsUpTo n x) (digitsUpTo n y) c = digitsUpTo n (x + y + c) := by
  induction n generalizing x y c with
  | zero => rfl
  | succ n ih =>
    have tenth : (x + y + c) / 10 = x / 10 + y / 10 + (x % 10 + y % 10 + c) / 10 := by omega
    have units : (x + y + c) % 10 = (x % 10 + y % 10 + c) % 10 := by omega
    rw [digitsUpTo_succ, digitsUpTo_succ, digitsUpTo_succ, addDigits, ih, tenth, units]

theorem digitsOf2Pow63_eq : digitsOf2Pow63 = digitsUpTo 20 (2 ^ 63) := by decide

/-- The digits of a low part: a number below 2^63 has at most 19. -/
theorem lowDigits_eq (low : BitVec 63) : lowDigits low = digitsUpTo 20 low.toNat :=
  (digitsUpTo_succ_of_lt (low.isLt.trans (by norm_num))).symm

/-- The datapath of R142 gives the digits of the magnitude (R143). -/
theorem decimalDatapathDigits_eq (a : Split) : decimalDatapathDigits a = digitsUpTo 20 a.val := by
  rw [decimalDatapathDigits]
  split
  next zero => rw [lowDigits_eq, Split.val_eq_low_of_high zero]
  next one =>
    have high : a.high = 1#1 := a.high_cases.resolve_left one
    rw [lowDigits_eq, digitsOf2Pow63_eq, addDigits_digitsUpTo, Split.val, high]
    rfl

/-! ### The length -/

/-- The position of the top digit is the least number of digits that holds the number. -/
theorem topPosition_le_iff {n a : Nat} (h : a < 10 ^ n) (m : Nat) : topPosition (digitsUpTo n a) ≤ m ↔ a < 10 ^ m := by
  induction n generalizing a m with
  | zero =>
    have zero : a = 0 := Nat.lt_one_iff.1 h
    simp [zero, digitsUpTo_zero, topPosition]
  | succ n ih =>
    have tenth : a / 10 < 10 ^ n := Nat.div_lt_of_lt_mul (Nat.pow_succ' ▸ h)
    have shift : ∀ k, a / 10 < 10 ^ k ↔ a < 10 ^ (k + 1) := fun k => by
      rw [Nat.div_lt_iff_lt_mul (by decide), Nat.pow_succ]
    rw [digitsUpTo_succ, topPosition]
    cases m with
    | zero =>
      have low := ih tenth 0
      rw [pow_zero] at low ⊢
      split
      next => split <;> omega
      next => omega
    | succ m =>
      have above := ih tenth m
      rw [shift] at above
      split
      next last =>
        have fits : a < 10 ^ (m + 1) := above.1 (by omega)
        refine iff_of_true ?_ fits
        split <;> omega
      next => rw [Nat.succ_le_succ_iff, above]

/-- The length of a numeral is the least number of digits from 1 on that holds the number. -/
theorem decimalLength_le_iff {a m : Nat} (ha : a < 10 ^ 20) (hm : 1 ≤ m) : decimalLength a ≤ m ↔ a < 10 ^ m := by
  obtain ⟨-, -, fits, least⟩ := decimalLength_spec a ha
  exact ⟨fun h => fits.trans_le (Nat.pow_le_pow_right (by decide) h), least m hm⟩

/-- The datapath of R142 gives the length of the magnitude (R143). -/
theorem decimalDatapathLength_eq (a : Split) : decimalDatapathLength a = decimalLength a.val := by
  have ha : a.val < 10 ^ 20 := a.val_lt.trans (by norm_num)
  have position := topPosition_le_iff ha
  rw [decimalDatapathLength, decimalDatapathDigits_eq]
  split
  next empty =>
    have zero : a.val = 0 := Nat.lt_one_iff.1 ((position 0).1 (Nat.le_of_eq empty))
    rw [zero]
    rfl
  next nonempty =>
    obtain ⟨pos, -, fits, -⟩ := decimalLength_spec a.val ha
    refine Nat.le_antisymm ((position _).2 fits) ?_
    rw [decimalLength_le_iff ha (Nat.one_le_iff_ne_zero.2 nonempty), ← position]

/-- Settles O48: TODEC leaves the digits and the length of ACC, and so does the datapath. -/
theorem decimalDatapathRefines : Obligations.DecimalDatapathRefines := by
  intro s t h
  cases (exec_todec s).symm.trans h
  rw [s.finishTodec_dec, s.finishTodec_dlen_toNat, decimalDigits_eq, decimalDatapathDigits_eq, decimalDatapathLength_eq]
  exact ⟨rfl, rfl⟩

end Sys2Proof.Machine

/-! PROOFS. Laws of the families (spec/10_state.md R25; spec/41_add_sub.md R79, R83, R87; spec/42_multiply.md R95, R96;
spec/43_divide_modulo.md R107; spec/44_shift.md R123; spec/45_bitwise.md R130): arithmetic on what each command leaves
in ACC and FLAGS. -/

namespace Sys2Proof.Machine

open Sys2Proof

/-! ### ACC by its value and by its pattern -/

/-- ACC is kept when its value is. -/
theorem keepsAcc_of_accVal {s t : State} (h : t.accVal = s.accVal) : KeepsAcc s t := by
  have pair : t.acc = s.acc := Split.val_inj h
  exact ⟨congrArg Split.high pair, congrArg Split.low pair⟩

/-- ACC is kept when its pattern is. -/
theorem keepsAcc_of_accPat {s t : State} (h : t.accPat = s.accPat) : KeepsAcc s t :=
  keepsAcc_of_accVal (by rw [← t.accPat_toNat, ← s.accPat_toNat, h])

theorem State.accPat_writeAcc (s : State) (v : Word) : (s.writeAcc v).accPat = v := by
  rw [State.accPat, State.acc_writeAcc, Split.pat_ofWord]

/-- A second write of ACC is the one that remains. -/
theorem State.writeAcc_writeAcc (s : State) (v w : Word) : (s.writeAcc v).writeAcc w = s.writeAcc w := by
  cases s
  rfl

/-! ### What the value and the flag of a command are, from the command's own run -/

theorem accVal_of_exec_add {b : Word} {s t : State} (h : exec (.add b) s = .next t) :
    t.accVal = (s.accVal + b.toNat) % 2 ^ 64 ∧ (flagC t.flags = true ↔ 2 ^ 64 ≤ s.accVal + b.toNat) := by
  obtain ⟨t', ht', -, -, value, flags, -⟩ := addResult b s
  cases ht'.symm.trans h
  exact ⟨value, (flags 0).trans (and_iff_right rfl)⟩

theorem accVal_of_exec_sub {b : Word} {s t : State} (h : exec (.sub b) s = .next t) :
    (t.accVal : Int) = ((s.accVal : Int) - (b.toNat : Int)) % 2 ^ 64 ∧ (flagB t.flags = true ↔ s.accVal < b.toNat) := by
  obtain ⟨t', ht', -, -, value, flags, -⟩ := subResult b s
  cases ht'.symm.trans h
  exact ⟨value, (flags 1).trans (and_iff_right rfl)⟩

theorem accVal_of_exec_mul {b : Word} {s t : State} (h : exec (.mul b) s = .next t) :
    t.accVal = s.accVal * b.toNat % 2 ^ 64 ∧ (flagV t.flags = true ↔ 2 ^ 64 ≤ s.accVal * b.toNat) := by
  obtain ⟨t', ht', -, -, value, flags, -⟩ := mulResult b s
  cases ht'.symm.trans h
  exact ⟨value, (flags 2).trans (and_iff_right rfl)⟩

/-- V is 0 exactly when the product fits, which is then the result (R25). -/
theorem flagV_eq_false_iff {b : Word} {s t : State} (h : exec (.mul b) s = .next t) :
    flagV t.flags = false ↔ s.accVal * b.toNat < 2 ^ 64 := by
  obtain ⟨-, overflow⟩ := accVal_of_exec_mul h
  rw [← not_iff_not, Bool.not_eq_false, overflow, not_lt]

theorem accVal_of_exec_mul_fits {b : Word} {s t : State} (h : exec (.mul b) s = .next t)
    (fits : s.accVal * b.toNat < 2 ^ 64) : t.accVal = s.accVal * b.toNat := by
  obtain ⟨value, -⟩ := accVal_of_exec_mul h
  rw [value, Nat.mod_eq_of_lt fits]

theorem accVal_of_exec_div {b : Word} {s t : State} (hb : b ≠ 0#64) (h : exec (.div b) s = .next t) :
    t.accVal = s.accVal / b.toNat := by
  obtain ⟨t', ht', -, -, value, -⟩ := (divResult b s).1 hb
  cases ht'.symm.trans h
  exact value

theorem accVal_of_exec_mod {b : Word} {s t : State} (hb : b ≠ 0#64) (h : exec (.mod b) s = .next t) :
    t.accVal = s.accVal % b.toNat := by
  obtain ⟨t', ht', -, -, value, -⟩ := (modResult b s).1 hb
  cases ht'.symm.trans h
  exact value

theorem toNat_pos_of_ne_zero {b : Word} (h : b ≠ 0#64) : 0 < b.toNat :=
  Nat.pos_of_ne_zero (mt (operandVal_eq_zero_iff b).1 h)

/-! ### Addition and subtraction -/

/-- C and the wrapped sum together are the sum (R25), which the adder's outputs are. -/
theorem exec_add_exact {b : Word} {s t : State} (h : exec (.add b) s = .next t) :
    s.accVal + b.toNat = t.accVal + (flagC t.flags).toNat * 2 ^ 64 := by
  obtain ⟨pair, carry⟩ := exec_add_datapath h
  have sum := addDatapath_exact s.acc (Split.ofWord b)
  rw [← pair, ← carry, Split.val_ofWord] at sum
  rw [Nat.mul_comm]
  exact sum.symm

/-- B and the wrapped difference together are the difference (R25), which the subtractor's outputs are. -/
theorem exec_sub_exact {b : Word} {s t : State} (h : exec (.sub b) s = .next t) :
    (s.accVal : Int) - (b.toNat : Int) = (t.accVal : Int) - ((flagB t.flags).toNat : Int) * 2 ^ 64 := by
  obtain ⟨pair, borrow⟩ := exec_sub_datapath h
  have diff := subDatapath_exact s.acc (Split.ofWord b)
  rw [← pair, ← borrow, Split.val_ofWord] at diff
  rw [Int.mul_comm]
  exact diff.symm

/-- Settles O49: ADD and SUB are exact, INC and DEC are ADD 1 and SUB 1, and V tells whether the product was reduced. -/
theorem flagsMakeResultsExact : Obligations.FlagsMakeResultsExact := by
  intro b s t
  refine ⟨exec_add_exact, fun h => ?inc, exec_sub_exact, fun h => ?dec, fun h => ⟨fun fits => ?mul, fun lost => ?lost⟩⟩
  case inc =>
    rw [exec_inc_eq_add_one] at h
    exact exec_add_exact h
  case dec =>
    rw [exec_dec_eq_sub_one] at h
    exact exec_sub_exact h
  case mul => exact (accVal_of_exec_mul_fits h ((flagV_eq_false_iff h).1 fits)).symm
  case lost =>
    obtain ⟨value, overflow⟩ := accVal_of_exec_mul h
    exact ⟨overflow.1 lost, value⟩

/-- Settles O50: the sum does not change with its order, and a wrapped sum is less than either term. -/
theorem addLaws : Obligations.AddLaws := by
  intro b s t h
  obtain ⟨value, carry⟩ := accVal_of_exec_add h
  have ha := s.accVal_lt
  have hb := b.isLt
  refine ⟨?commutes, fun zero => keepsAcc_of_accVal ?identity, ?less, fun set => ?lessOperand⟩
  case commutes =>
    rw [exec_add, s.accVal_writeAcc, s.accPat_toNat, Nat.add_comm, State.finishSum, State.writeAcc_writeAcc]
    exact (exec_add b s).symm.trans h
  case identity => rw [value, zero, BitVec.toNat_zero, Nat.add_zero, Nat.mod_eq_of_lt ha]
  case less =>
    rw [carry]
    omega
  case lessOperand =>
    have := carry.1 set
    omega

/-- ADD then SUB of one operand: the borrow is the carry, so the two wraps cancel (R83). -/
theorem keepsAcc_add_sub {b : Word} {s t u : State} (ht : exec (.add b) s = .next t) (hu : exec (.sub b) t = .next u) :
    KeepsAcc s u ∧ flagB u.flags = flagC t.flags := by
  obtain ⟨sum, carry⟩ := accVal_of_exec_add ht
  obtain ⟨diff, borrow⟩ := accVal_of_exec_sub hu
  have ha := s.accVal_lt
  have hb := b.isLt
  refine ⟨keepsAcc_of_accVal (by omega), Bool.eq_iff_iff.2 ?_⟩
  rw [borrow, carry]
  omega

theorem keepsAcc_sub_add {b : Word} {s t u : State} (ht : exec (.sub b) s = .next t) (hu : exec (.add b) t = .next u) :
    KeepsAcc s u := by
  obtain ⟨diff, -⟩ := accVal_of_exec_sub ht
  obtain ⟨sum, -⟩ := accVal_of_exec_add hu
  have ha := s.accVal_lt
  have hb := b.isLt
  exact keepsAcc_of_accVal (by omega)

/-- Settles O51: the two orders of ADD and SUB, and INC and DEC as ADD 1 and SUB 1. -/
theorem addSubInverse : Obligations.AddSubInverse := by
  intro b s t u
  refine ⟨keepsAcc_add_sub, keepsAcc_sub_add, fun ht hu => ?incDec, fun ht hu => ?decInc⟩
  case incDec =>
    rw [exec_inc_eq_add_one] at ht
    rw [exec_dec_eq_sub_one] at hu
    obtain ⟨keeps, -⟩ := keepsAcc_add_sub ht hu
    exact keeps
  case decInc =>
    rw [exec_dec_eq_sub_one] at ht
    rw [exec_inc_eq_add_one] at hu
    exact keepsAcc_sub_add ht hu

/-! ### Multiplication and division -/

/-- Settles O52: the product does not change with its order, and a product that fits is divided back. -/
theorem mulLaws : Obligations.MulLaws := by
  intro b s t h
  obtain ⟨value, -⟩ := accVal_of_exec_mul h
  refine ⟨?commutes, fun zero => ?clears, fun one => keepsAcc_of_accVal ?identity, fun fits hb => ?restores⟩
  case commutes =>
    rw [exec_mul, s.accVal_writeAcc, s.accPat_toNat, Nat.mul_comm, State.writeAcc_writeAcc]
    exact (exec_mul b s).symm.trans h
  case clears => rw [value, zero, BitVec.toNat_zero, Nat.mul_zero, Nat.zero_mod]
  case identity => rw [value, one, toNat_one_word, Nat.mul_one, Nat.mod_eq_of_lt s.accVal_lt]
  case restores =>
    have hu := exec_div_of_ne_zero hb t
    refine ⟨_, hu, keepsAcc_of_accVal ?_⟩
    rw [accVal_of_exec_div hb hu, accVal_of_exec_mul_fits h ((flagV_eq_false_iff h).1 fits),
      Nat.mul_div_cancel _ (toNat_pos_of_ne_zero hb)]

/-- `ACC.H` is 1 exactly from 2^63 on. -/
theorem State.accH_eq_one_iff (s : State) : s.accH = 1#1 ↔ 2 ^ 63 ≤ s.accVal := by
  have zero : s.accH = 0#1 ↔ s.accVal < 2 ^ 63 := s.acc.high_eq_zero_iff
  rw [← not_lt, ← zero]
  rcases s.acc.high_cases with h | h <;> simp [show s.accH = _ from h]

/-- Settles O53: lengths bound the product from both sides by powers of two (R95). -/
theorem mulOverflowByLength : Obligations.MulOverflowByLength := by
  intro b s t h
  refine ⟨fun short => ?short, fun exactly => ?exactly, fun long => ?long⟩
  case short =>
    have product := mul_lt_two_pow_of_bitLength short
    have fits : s.accVal * b.toNat < 2 ^ 64 := by omega
    refine ⟨(flagV_eq_false_iff h).2 fits, t.acc.high_eq_zero_iff.2 ?_⟩
    exact (accVal_of_exec_mul_fits h fits).trans_lt product
  case exactly =>
    have product := mul_lt_two_pow_of_bitLength (Nat.le_of_eq exactly)
    refine ⟨(flagV_eq_false_iff h).2 product, ?_⟩
    rw [t.accH_eq_one_iff, accVal_of_exec_mul_fits h product]
  case long =>
    obtain ⟨-, overflow⟩ := accVal_of_exec_mul h
    have ha := (bitLength_le_iff s.accVal 64).2 s.accVal_lt
    have hb := (bitLength_le_iff b.toNat 64).2 b.isLt
    have factors := Nat.mul_le_mul (two_pow_le_of_bitLength (n := bitLength s.accVal - 1) (v := s.accVal) (by omega))
      (two_pow_le_of_bitLength (n := bitLength b.toNat - 1) (v := b.toNat) (by omega))
    rw [← Nat.pow_add] at factors
    exact overflow.2 ((Nat.pow_le_pow_right (by decide) (by omega)).trans factors)

/-- The host's command runs as `exec` of it. -/
theorem issue_of_exec {i : Instr} {s t : State} (h : exec i s = .next t) : issue i s = some t := by
  rw [issue, step_present_of_decode_ok (decodeEncodeRoundTrip i i.wellFormed_true), h]

/-- Settles O54: the product of quotient and divisor is at most the dividend and fits, and adding the remainder gives the
dividend, which fits too. -/
theorem divisionIdentityRun : Obligations.DivisionIdentityRun := by
  intro b s t u hb ht hu
  have quotient := accVal_of_exec_div hb ht
  have remainder := accVal_of_exec_mod hb hu
  have identity : s.accVal / b.toNat * b.toNat + s.accVal % b.toNat = s.accVal := Nat.div_add_mod' _ _
  have ha := s.accVal_lt
  refine ⟨?below, ?atMost, fun less => ?small, ?run⟩
  case below => exact remainder.trans_lt (Nat.mod_lt _ (toNat_pos_of_ne_zero hb))
  case atMost => exact quotient.trans_le (Nat.div_le_self _ _)
  case small => exact ⟨quotient.trans (Nat.div_eq_of_lt less), remainder.trans (Nat.mod_eq_of_lt less)⟩
  case run =>
    obtain ⟨x, hx, xval⟩ := exec_load_accVal t.accPat s
    obtain ⟨y, hy, -⟩ := mulResult b x
    obtain ⟨z, hz, -⟩ := addResult u.accPat y
    rw [t.accPat_toNat, quotient] at xval
    have fits : x.accVal * b.toNat < 2 ^ 64 := by
      rw [xval]
      omega
    obtain ⟨value, carry⟩ := accVal_of_exec_add hz
    rw [u.accPat_toNat, remainder, accVal_of_exec_mul_fits hy fits, xval, identity] at value carry
    refine ⟨x, y, z, issue_of_exec hx, issue_of_exec hy, issue_of_exec hz, (flagV_eq_false_iff hy).2 fits, ?_, ?_⟩
    · exact Bool.eq_false_iff.2 (mt carry.1 (by omega))
    · exact keepsAcc_of_accVal (value.trans (Nat.mod_eq_of_lt ha))

/-! ### Shifts by 0 to 63 -/

theorem accVal_of_exec_lsl {n : Word} {s t : State} (hn : n.toNat < 64) (h : exec (.lsl n) s = .next t) :
    t.accVal = s.accVal * 2 ^ n.toNat % 2 ^ 64 := by
  obtain ⟨t', -, ht', -, -, -, value, -⟩ := leftShiftResult n s
  cases ht'.symm.trans h
  exact value hn

theorem accVal_of_exec_lsr {n : Word} {s t : State} (hn : n.toNat < 64) (h : exec (.lsr n) s = .next t) :
    t.accVal = s.accVal / 2 ^ n.toNat := by
  obtain ⟨t', -, ht', -, -, -, value, -⟩ := rightShiftResult n s
  cases ht'.symm.trans h
  exact value hn

/-- LSL shifts the pattern of ACC. -/
theorem accPat_of_exec_lsl {n : Word} {s t : State} (hn : n.toNat < 64) (h : exec (.lsl n) s = .next t) :
    t.accPat = s.accPat <<< n.toNat := by
  apply BitVec.eq_of_toNat_eq
  rw [t.accPat_toNat, accVal_of_exec_lsl hn h, BitVec.toNat_shiftLeft, Nat.shiftLeft_eq, s.accPat_toNat]

/-- LSR shifts the pattern of ACC, and zeros enter at bit 63. -/
theorem accPat_of_exec_lsr {n : Word} {s t : State} (hn : n.toNat < 64) (h : exec (.lsr n) s = .next t) :
    t.accPat = s.accPat >>> n.toNat := by
  apply BitVec.eq_of_toNat_eq
  rw [t.accPat_toNat, accVal_of_exec_lsr hn h, BitVec.toNat_ushiftRight, Nat.shiftRight_eq_div_pow, s.accPat_toNat]

/-- The power of two that a shift multiplies or divides by, as an operand. -/
theorem toNat_two_pow {n : Nat} (hn : n < 64) : (BitVec.ofNat 64 (2 ^ n)).toNat = 2 ^ n := by
  rw [BitVec.toNat_ofNat, Nat.mod_eq_of_lt (Nat.pow_lt_pow_right (by decide) hn)]

theorem two_pow_ne_zero_word {n : Nat} (hn : n < 64) : BitVec.ofNat 64 (2 ^ n) ≠ 0#64 := by
  intro zero
  have := congrArg BitVec.toNat zero
  rw [toNat_two_pow hn, BitVec.toNat_zero] at this
  exact (Nat.two_pow_pos n).ne' this

/-- Settles O55: a shift multiplies or divides by a power of two, and bit by bit one shift after the other loses what it
shifted out. -/
theorem shiftLaws : Obligations.ShiftLaws := by
  intro n s t u hn ht hu
  have hn : n.toNat < 64 := Nat.lt_succ_of_le hn
  refine ⟨?mul, ?div, ?clearsTop, ?clearsBottom⟩
  case mul =>
    obtain ⟨x, hx, -⟩ := mulResult (BitVec.ofNat 64 (2 ^ n.toNat)) s
    obtain ⟨value, -⟩ := accVal_of_exec_mul hx
    refine ⟨x, hx, keepsAcc_of_accVal ?_⟩
    rw [value, toNat_two_pow hn, accVal_of_exec_lsl hn ht]
  case div =>
    have divisor := two_pow_ne_zero_word hn
    have hx := exec_div_of_ne_zero divisor s
    refine ⟨_, hx, keepsAcc_of_accVal ?_⟩
    rw [accVal_of_exec_div divisor hx, toNat_two_pow hn, accVal_of_exec_lsr hn hu]
  case clearsTop =>
    obtain ⟨x, -, hx, -⟩ := rightShiftResult n t
    refine ⟨x, hx, fun i hi => ?_⟩
    rw [accPat_of_exec_lsr hn hx, accPat_of_exec_lsl hn ht, BitVec.getLsbD_ushiftRight, BitVec.getLsbD_shiftLeft,
      Nat.add_sub_cancel_left]
    by_cases kept : i < 64 - n.toNat
    · simp [kept, show n.toNat + i < 64 by omega]
    · simp [kept, show ¬ n.toNat + i < 64 by omega]
  case clearsBottom =>
    obtain ⟨x, -, hx, -⟩ := leftShiftResult n u
    refine ⟨x, hx, fun i hi => ?_⟩
    rw [accPat_of_exec_lsl hn hx, accPat_of_exec_lsr hn hu, BitVec.getLsbD_shiftLeft, BitVec.getLsbD_ushiftRight]
    by_cases kept : n.toNat ≤ i
    · simp [kept, hi, show n.toNat + (i - n.toNat) = i by omega]
    · simp [kept, show i < n.toNat by omega]

/-! ### The bitwise family -/

theorem accPat_of_exec_and {q : Word} {s t : State} (h : exec (.and q) s = .next t) : t.accPat = s.accPat &&& q := by
  cases (exec_and q s).symm.trans h
  exact accPat_writeAcc_complete _ _ _

theorem accPat_of_exec_or {q : Word} {s t : State} (h : exec (.or q) s = .next t) : t.accPat = s.accPat ||| q := by
  cases (exec_or q s).symm.trans h
  exact accPat_writeAcc_complete _ _ _

theorem accPat_of_exec_xor {q : Word} {s t : State} (h : exec (.xor q) s = .next t) : t.accPat = s.accPat ^^^ q := by
  cases (exec_xor q s).symm.trans h
  exact accPat_writeAcc_complete _ _ _

/-- Settles O56: each law is that of the operation on patterns. -/
theorem bitwiseLaws : Obligations.BitwiseLaws := by
  intro q s t u
  refine ⟨?idempotent, fun ht hu => keepsAcc_of_accPat ?selfInverse, fun h => ?andComm, fun h => ?orComm, fun h => ?xorComm,
    ?notIsXor, fun h => ?notSum⟩
  case idempotent =>
    rintro i (rfl | rfl) ht hu
    · refine keepsAcc_of_accPat ?_
      rw [accPat_of_exec_and hu, accPat_of_exec_and ht, BitVec.and_assoc, BitVec.and_self]
    · refine keepsAcc_of_accPat ?_
      rw [accPat_of_exec_or hu, accPat_of_exec_or ht, BitVec.or_assoc, BitVec.or_self]
  case selfInverse => rw [accPat_of_exec_xor hu, accPat_of_exec_xor ht, BitVec.xor_assoc, BitVec.xor_self, BitVec.xor_zero]
  case andComm =>
    rw [exec_and, State.accPat_writeAcc, State.writeAcc_writeAcc, BitVec.and_comm]
    exact (exec_and q s).symm.trans h
  case orComm =>
    rw [exec_or, State.accPat_writeAcc, State.writeAcc_writeAcc, BitVec.or_comm]
    exact (exec_or q s).symm.trans h
  case xorComm =>
    rw [exec_xor, State.accPat_writeAcc, State.writeAcc_writeAcc, BitVec.xor_comm]
    exact (exec_xor q s).symm.trans h
  case notIsXor =>
    rw [exec_not, exec_xor, ← BitVec.xor_allOnes]
    rfl
  case notSum =>
    obtain ⟨t', ht', -, -, -, -, -, -, value, -⟩ := notResult s
    cases ht'.symm.trans h
    have := s.accVal_lt
    omega

end Sys2Proof.Machine

/-! PROOFS. The parse procedure (spec/47_decimal.md R147 to R151): the loop keeps the value of the digits read so far in
ACC until it no longer fits, and the digits that TODEC leaves are those of ACC (R145, R151). -/

namespace Sys2Proof.Machine

open Sys2Proof

/-! ### One pass of the loop -/

/-- The threshold of R149 is the quotient of the largest value by the radix. -/
theorem parseThreshold_toNat (r : Word) : (parseThreshold r).toNat = (2 ^ 64 - 1) / r.toNat := by
  rw [parseThreshold, BitVec.toNat_ofNat, Nat.mod_eq_of_lt ((Nat.div_le_self _ _).trans_lt (by decide))]

/-- ACC is above the threshold exactly when its product with the radix does not fit (R149). -/
theorem parseThreshold_lt_iff {r : Word} (hr : 0 < r.toNat) (a : Nat) :
    (parseThreshold r).toNat < a ↔ 2 ^ 64 ≤ a * r.toNat := by
  rw [parseThreshold_toNat, Nat.div_lt_iff_lt_mul hr]
  omega

/-- CMP tells by GT whether ACC is above the operand, and keeps ACC (R136). -/
theorem exec_cmp_spec (b : Word) (s : State) :
    ∃ t, exec (.cmp b) s = .next t ∧ t.accVal = s.accVal ∧ (flagGT (flagsO t) = true ↔ b.toNat < s.accVal) := by
  obtain ⟨t, ht, -, above, -⟩ := exec_cmp_flags b s
  cases (exec_cmp b s).symm.trans ht
  exact ⟨_, ht, congrArg Split.val (State.acc_complete s _), above⟩

/-- A pass whose digit makes a value of 64 bits accepts it in ACC. -/
theorem parseDigit_accepted {r d : Word} {s : State} (hr : 0 < r.toNat) (h : s.accVal * r.toNat + d.toNat < 2 ^ 64) :
    ∃ t, parseDigit r d s = .accepted t ∧ t.accVal = s.accVal * r.toNat + d.toNat := by
  obtain ⟨x, hx, xval, above⟩ := exec_cmp_spec (parseThreshold r) s
  obtain ⟨y, hy, -⟩ := mulResult r x
  obtain ⟨z, hz, -⟩ := addResult d y
  have fits : x.accVal * r.toNat < 2 ^ 64 := by
    rw [xval]
    omega
  have within : ¬ flagGT (flagsO x) = true := by
    rw [above, parseThreshold_lt_iff hr, ← xval]
    omega
  have product := accVal_of_exec_mul_fits hy fits
  obtain ⟨sum, carry⟩ := accVal_of_exec_add hz
  rw [product, xval] at sum carry
  have noCarry : ¬ flagC (flagsO z) = true := mt carry.1 (by omega)
  refine ⟨z, ?_, sum.trans (Nat.mod_eq_of_lt h)⟩
  simp only [parseDigit, issue_of_exec hx, issue_of_exec hy, issue_of_exec hz, if_neg within, if_neg noCarry]

/-- A pass whose digit makes a value of 2^64 or more rejects it: the threshold is passed or the addition carries. -/
theorem parseDigit_rejected {r d : Word} {s : State} (hr : 0 < r.toNat) (h : 2 ^ 64 ≤ s.accVal * r.toNat + d.toNat) :
    ∃ t, parseDigit r d s = .rejected t := by
  obtain ⟨x, hx, xval, above⟩ := exec_cmp_spec (parseThreshold r) s
  by_cases passed : flagGT (flagsO x) = true
  · refine ⟨x, ?_⟩
    simp only [parseDigit, issue_of_exec hx, if_pos passed]
  · obtain ⟨y, hy, -⟩ := mulResult r x
    obtain ⟨z, hz, -⟩ := addResult d y
    have fits : x.accVal * r.toNat < 2 ^ 64 := by
      rw [above, parseThreshold_lt_iff hr, ← xval] at passed
      omega
    obtain ⟨-, carry⟩ := accVal_of_exec_add hz
    rw [accVal_of_exec_mul_fits hy fits, xval] at carry
    have carries : flagC (flagsO z) = true := carry.2 h
    refine ⟨z, ?_⟩
    simp only [parseDigit, issue_of_exec hx, issue_of_exec hy, issue_of_exec hz, if_neg passed, if_pos carries]

/-! ### The loop -/

/-- The value of digits read after a number: `numeralValue` from that number on. -/
def numeralFrom (r n : Nat) (ds : List Word) : Nat := ds.foldl (fun n d => n * r + d.toNat) n

theorem numeralValue_eq (r : Nat) (ds : List Word) : numeralValue r ds = numeralFrom r 0 ds := rfl

/-- Reading digits makes no number smaller. -/
theorem le_numeralFrom {r : Nat} (hr : 0 < r) (n : Nat) (ds : List Word) : n ≤ numeralFrom r n ds := by
  induction ds generalizing n with
  | nil => exact Nat.le_refl n
  | cons d ds ih =>
    calc n ≤ n * r := Nat.le_mul_of_pos_right n hr
      _ ≤ n * r + d.toNat := Nat.le_add_right _ _
      _ ≤ _ := ih _

/-- The loop accepts digits whose value fits, and leaves the value in ACC. -/
theorem parseLoop_accepted {r : Word} (hr : 0 < r.toNat) (ds : List Word) :
    ∀ {s : State}, numeralFrom r.toNat s.accVal ds < 2 ^ 64 →
      ∃ t, parseLoop r ds s = .accepted t ∧ t.accVal = numeralFrom r.toNat s.accVal ds := by
  induction ds with
  | nil => exact fun _ => ⟨_, rfl, rfl⟩
  | cons d ds ih =>
    intro s h
    obtain ⟨u, pass, value⟩ := parseDigit_accepted (d := d) hr ((le_numeralFrom hr _ ds).trans_lt h)
    obtain ⟨t, loop, total⟩ := ih (s := u) (by rw [value]; exact h)
    refine ⟨t, ?_, by rw [total, value]; rfl⟩
    rw [parseLoop, pass]
    exact loop

/-- The loop rejects digits whose value does not fit, at the first digit with which it no longer does. -/
theorem parseLoop_rejected {r : Word} (hr : 0 < r.toNat) (ds : List Word) :
    ∀ {s : State}, 2 ^ 64 ≤ numeralFrom r.toNat s.accVal ds → ∃ t, parseLoop r ds s = .rejected t := by
  induction ds with
  | nil => exact fun {s} h => absurd s.accVal_lt h.not_gt
  | cons d ds ih =>
    intro s h
    by_cases fits : s.accVal * r.toNat + d.toNat < 2 ^ 64
    · obtain ⟨u, pass, value⟩ := parseDigit_accepted hr fits
      obtain ⟨t, loop⟩ := ih (s := u) (by rw [value]; exact h)
      refine ⟨t, ?_⟩
      rw [parseLoop, pass]
      exact loop
    · obtain ⟨t, pass⟩ := parseDigit_rejected hr (not_lt.1 fits)
      refine ⟨t, ?_⟩
      rw [parseLoop, pass]

/-! ### The procedure -/

theorem parse_of_not_parseable {r : Word} {ds : List Word} (h : ¬ parseable r ds = true) (s : State) :
    parse r ds s = .rejected s := by
  rw [parse, if_neg h]

/-- What passes the host's checks is parsed by the loop, from ACC = 0. -/
theorem parse_of_parseable {r : Word} {ds : List Word} (h : parseable r ds = true) (s : State) :
    ∃ t, parse r ds s = parseLoop r ds t ∧ t.accVal = 0 := by
  obtain ⟨t, ht, value⟩ := exec_load_accVal 0#64 s
  refine ⟨t, ?_, value⟩
  simp only [parse, if_pos h, issue_of_exec ht]

theorem parse_accepted {r : Word} {ds : List Word} (h : parseable r ds = true)
    (fits : numeralValue r.toNat ds < 2 ^ 64) (s : State) :
    ∃ t, parse r ds s = .accepted t ∧ t.accVal = numeralValue r.toNat ds := by
  obtain ⟨radix, -⟩ := (parseable_iff r ds).1 h
  obtain ⟨u, run, zero⟩ := parse_of_parseable h s
  rw [numeralValue_eq, ← zero] at fits ⊢
  rw [run]
  exact parseLoop_accepted (by omega) ds fits

theorem parse_rejected {r : Word} {ds : List Word} (h : parseable r ds = true)
    (big : 2 ^ 64 ≤ numeralValue r.toNat ds) (s : State) : ∃ t, parse r ds s = .rejected t := by
  obtain ⟨radix, -⟩ := (parseable_iff r ds).1 h
  obtain ⟨u, run, zero⟩ := parse_of_parseable h s
  rw [numeralValue_eq, ← zero] at big
  rw [run]
  exact parseLoop_rejected (by omega) ds big

/-- Settles O57: what fails the host's checks is rejected before any step, and the loop decides the rest by the value. -/
theorem parseAcceptsExactly : Obligations.ParseAcceptsExactly := by
  intro r ds s
  refine ⟨fun bad => parse_of_not_parseable ?_ s, fun radix nonempty digits => ?_⟩
  · rw [parseable_iff]
    rintro ⟨radix, nonempty, digits⟩
    rcases bad with small | empty | ⟨d, hd, large⟩
    · omega
    · exact nonempty empty
    · exact (digits d hd).not_ge large
  · have passes := (parseable_iff r ds).2 ⟨radix, nonempty, digits⟩
    exact ⟨fun fits => parse_accepted passes fits s, fun big => parse_rejected passes big s⟩

/-! ### The digits of TODEC -/

/-- The digits that the host reads after TODEC are the lowest DLEN digits of ACC, most significant first (R145). -/
theorem renderedDigits_finishTodec (s : State) :
    renderedDigits s.finishTodec = ((digitsUpTo (decimalLength s.accVal) s.accVal).map (BitVec.ofNat 64)).reverse := by
  obtain ⟨-, short, -, -⟩ := decimalLength_spec s.accVal s.accVal_lt_ten_pow
  rw [renderedDigits, dlenO, s.finishTodec_dlen_toNat, digitsUpTo, List.map_map]
  congr 1
  apply List.map_congr_left
  intro i hi
  have digit := s.finishTodec_decDigit ((List.mem_range.1 hi).trans_le short)
  rw [decO, Function.comp_apply, ← digit]
  exact (BitVec.ofNat_toNat 64 _).symm

/-- The lowest `n` digits of a number, most significant first, are a numeral of its remainder by 10^n. -/
theorem numeralValue_digitsUpTo (n a : Nat) :
    numeralValue 10 ((digitsUpTo n a).map (BitVec.ofNat 64)).reverse = a % 10 ^ n := by
  induction n generalizing a with
  | zero => exact (Nat.mod_one a).symm
  | succ n ih =>
    have units : (BitVec.ofNat 64 (a % 10)).toNat = a % 10 := by
      rw [BitVec.toNat_ofNat]
      omega
    have value := ih (a / 10)
    rw [numeralValue] at value
    rw [digitsUpTo_succ, List.map_cons, List.reverse_cons, numeralValue, List.foldl_append, value, List.foldl_cons,
      List.foldl_nil, units, Nat.pow_succ', Nat.mod_mul, Nat.mul_comm, Nat.add_comm]

/-- The digits of TODEC pass the host's checks in radix ten. -/
theorem parseable_renderedDigits (s : State) : parseable 10#64 (renderedDigits s.finishTodec) = true := by
  obtain ⟨pos, -⟩ := decimalLength_spec s.accVal s.accVal_lt_ten_pow
  rw [parseable_iff, renderedDigits_finishTodec]
  refine ⟨by decide, ?nonempty, fun d hd => ?digit⟩
  case nonempty =>
    apply List.ne_nil_of_length_pos
    rw [List.length_reverse, List.length_map, digitsUpTo, List.length_map, List.length_range]
    exact pos
  case digit =>
    simp only [digitsUpTo, List.mem_reverse, List.mem_map, List.map_map] at hd
    obtain ⟨i, -, rfl⟩ := hd
    exact (Nat.mod_le _ _).trans_lt (Nat.mod_lt (s.accVal / 10 ^ i) (by decide))

/-- Settles O58: the digits of TODEC pass the host's checks, and their value is that of ACC, which fits. -/
theorem todecParseRoundTrip : Obligations.TodecParseRoundTrip := by
  intro s t h
  cases (exec_todec s).symm.trans h
  obtain ⟨-, -, fits, -⟩ := decimalLength_spec s.accVal s.accVal_lt_ten_pow
  have value : numeralValue (10#64 : Word).toNat (renderedDigits s.finishTodec) = s.accVal := by
    rw [renderedDigits_finishTodec]
    exact (numeralValue_digitsUpTo _ _).trans (Nat.mod_eq_of_lt fits)
  obtain ⟨u, run, total⟩ := parse_accepted (parseable_renderedDigits s) (value ▸ s.accVal_lt) s.finishTodec
  exact ⟨u, run, keepsAcc_of_accVal (total.trans value)⟩

end Sys2Proof.Machine
